-- ==== Sys2Proof/Word.lean ====
section
/-! DEFINITION. The word type and the register number type of the core (spec 00_scope.md R5, R9; 30_encoding.md R61). -/

namespace Sys2Proof

/-- A register value, a memory word, an instruction word or the pc: a 32-bit pattern (R5, R9). -/
abbrev Word := BitVec 32

/-- A register index: the 5-bit field rs1, rs2 or rd, so every index is in range (R20, R61). -/
abbrev Reg := BitVec 5

end Sys2Proof
end

