-- ==== Sys2Proof/Config.lean ====
section
/-! DEFINITION. The configuration parameters of the core (spec 00_scope.md R6, R7), the bounds the spec sets on them,
the two named profiles, and the values `State.reset` runs with. -/

namespace Sys2Proof

/-- What an unrecognised opcode does (R6, R87, R88). -/
inductive InvalidOpcodePolicy where
  | nop
  | decodeError
  deriving DecidableEq, Repr

/-- What a fetch at a pc that is 2 mod 4 does (R6, R82). -/
inductive MisalignedFetchPolicy where
  | fault
  | truncate
  deriving DecidableEq, Repr

/-- The configuration parameters of R6 but for `ProgLen`, which is the length of the loaded program.
They are fixed for a run, and no program can see or change them. -/
structure Config where
  memStart              : Word
  memSize               : Nat
  stackEnabled          : Bool
  stackBase             : Word
  stackSize             : Nat
  alignCheck            : Bool
  spInit                : Word
  haltSentinel          : Word
  invalidOpcodePolicy   : InvalidOpcodePolicy
  x0Hardwired           : Bool
  jalrLinkFirst         : Bool
  misalignedFetchPolicy : MisalignedFetchPolicy
  maxSteps              : Option Nat
  deriving DecidableEq, Repr

namespace Config

/-- The bound on `ProgLen` (R6, D4). -/
abbrev maxProgLen : Nat := 2 ^ 29 - 512

/-- The default halt sentinel, 0x00000063 (R6, R64, D15). -/
abbrev defaultSentinel : Word := 0x00000063#32

/-- The bounds R6 sets on the parameters: bases are multiples of 4, and each region ends at or below 2^32.
The two stack parameters are read only when the stack is enabled. Other configurations: log entry 6. -/
def wf (c : Config) : Bool :=
  c.memStart.toNat % 4 == 0 && decide (c.memStart.toNat + 4 * c.memSize ≤ 2 ^ 32) &&
  (!c.stackEnabled ||
    (c.stackBase.toNat % 4 == 0 && decide (c.stackBase.toNat + 4 * c.stackSize ≤ 2 ^ 32)))

/-- The Full profile: stack on, alignment check off (R7). -/
def full (c : Config) : Config := { c with stackEnabled := true, alignCheck := false }

/-- The Reduced profile: stack off, alignment check on (R7). -/
def reduced (c : Config) : Config := { c with stackEnabled := false, alignCheck := true }

/-- The configuration of `State.reset`. The last six values are the defaults of R6.
DESIGN CHOICE (log entry 2, unsafe): R6 leaves the memory map, `SpInit` and the profile open; they are the test
configuration of 95_test_vectors.md section 0 in the Full profile. No statement rests on them. -/
def atReset : Config where
  memStart              := 0x00000100#32
  memSize               := 8
  stackEnabled          := true
  stackBase             := 0x00000200#32
  stackSize             := 8
  alignCheck            := false
  spInit                := 0x0000021C#32
  haltSentinel          := defaultSentinel
  invalidOpcodePolicy   := .nop
  x0Hardwired           := false
  jalrLinkFirst         := false
  misalignedFetchPolicy := .fault
  maxSteps              := none

end Config
end Sys2Proof
end

