-- ==== Sys2Proof/Machine/State.lean ====
section
/-! DEFINITION. The state of the core (10_state.md), the reasons a step can stop, the reset state
(70_reset_and_hazards.md R220 to R223), and the single-field updates everything else is written with. -/

namespace Sys2Proof.Machine

/-- A store of 32-bit words: pairs of a word index and the word, indices strictly rising, no word 0. An unlisted index
reads as 0, its reset value (R223). Words, not bytes: "a model must not give words byte lanes" (R49; log entry 4). -/
abbrev Memory := List (Nat × Word)

/-- Every index is at least `lo`, indices rise strictly, and no listed word is 0. -/
def Memory.sortedFrom : Nat → Memory → Bool
  | _, [] => true
  | lo, (k, v) :: m => decide (lo ≤ k) && (v != 0#32) && Memory.sortedFrom (k + 1) m

/-- The canonical form: equal contents are equal lists. -/
def Memory.wf (m : Memory) : Bool := Memory.sortedFrom 0 m

/-- Every listed index is below `n`, the size of the store in words. -/
def Memory.below (n : Nat) (m : Memory) : Bool := m.all fun c => decide (c.1 < n)

/-- The run status (R35). `Halted` and `Ended` are the normal terminations. -/
inductive Status where
  | running
  /-- The halt sentinel was fetched (R84). -/
  | halted
  /-- The pc was outside the program (R81). -/
  | ended
  /-- `Faulted(FetchMisaligned)` (R82). -/
  | faultedFetchMisaligned
  /-- `Refused(DecodeError)` (R88, R225). -/
  | refusedDecodeError
  deriving DecidableEq, Repr

/-- One trace record: the pc after the step and the 32 registers after the step's write (R36, R86). -/
structure TraceRecord where
  pc : Word
  x  : Vector Word 32
  deriving DecidableEq, Repr

/-- The state of one run: the spec's tuple `(x[0..31], pc, DataMem, StackMem, Program, status, trace)` (10_state.md), and
the configuration the run was started with, which no step changes (R6; log entry 1). -/
structure State where
  /-- The general registers (R20). -/
  x        : Vector Word 32
  /-- The program counter (R26). -/
  pc       : Word
  /-- The data memory, by word index (R32). -/
  dataMem  : Memory
  /-- The stack memory, by word index; it exists only when the stack is enabled (R33). -/
  stackMem : Memory
  /-- The program store (R31); its length is `ProgLen`. -/
  program  : List Word
  /-- The run status (R35). -/
  status   : Status
  /-- The trace, oldest record first (R36). -/
  trace    : List TraceRecord
  /-- The configuration (R6). -/
  cfg      : Config
  deriving DecidableEq, Repr

/-- Why a step gives no next state. -/
inductive Fault where
  /-- Raised by `step` and `hostStep`: the status is not Running, and "After Halted, Ended, Faulted or Refused there is no
  step" (R80). Safe: the machine stops where the spec has no step. -/
  | notRunning
  /-- Raised by `hostStep` alone: the host's step bound is reached (R90). Safe: such a run is not a normal end. -/
  | stepLimit
  deriving DecidableEq, Repr

/-- Why an instruction is refused. -/
inductive Refusal where
  /-- Raised by `exec` for an instruction that has no meaning yet. Safe. No arm uses it. -/
  | notModelled (mnemonic : String)
  deriving DecidableEq, Repr

namespace State

/-! ## Reset -/

/-- The state at the start of a run with this configuration and program: every register 0 but `x[2] = SpInit` (R221),
pc 0, status Running, empty trace (R222), memory all zero (R223). -/
def resetWith (c : Config) (program : List Word) : State where
  x        := (Vector.replicate 32 0#32).set 2 c.spInit
  pc       := 0x00000000#32
  dataMem  := []
  stackMem := []
  program  := program
  status   := .running
  trace    := []
  cfg      := c

/-- The machine right after reset, before a program is loaded: the program store is empty, since it "is not reset; it is
loaded" (R223). DESIGN CHOICE: the open parameters have the values of `Config.atReset` (log entries 2 and 3). -/
def reset : State := resetWith Config.atReset []

/-! ## Single-field updates -/

def setX (s : State) (x : Vector Word 32) : State := { s with x := x }
def setPc (s : State) (pc : Word) : State := { s with pc := pc }
def setDataMem (s : State) (m : Memory) : State := { s with dataMem := m }
def setStackMem (s : State) (m : Memory) : State := { s with stackMem := m }
def setProgram (s : State) (p : List Word) : State := { s with program := p }
def setStatus (s : State) (st : Status) : State := { s with status := st }
def setTrace (s : State) (t : List TraceRecord) : State := { s with trace := t }

end State
end Sys2Proof.Machine
end

