-- ==== Sys2Proof/Machine/Ops.lean ====
section
/-! DEFINITION. The named operations over numbers, registers, the pc, memory, the run status and the trace.
Taking an exception has no counterpart on this core: "There is no trap entry" (R204) and "no trap return instruction"
(R205). What stands in its place is `stop <Status>` (R13), here `State.stop`, the one operation every stop goes through. -/

namespace Sys2Proof.Machine

/-- The result of an instruction. -/
abbrev Result := Host.Outcome State Fault Refusal

/-! ## The codec (R9 to R12) -/

/-- `ToBinary(n, w)`: the `w`-bit two's-complement pattern of an integer, modulo 2^w (R11, 90_conflicts.md C6). -/
def toBinary (w : Nat) (n : Int) : BitVec w := BitVec.ofInt w n

/-- `ToSigned(f)`, that is `sext_N(f)`: the two's-complement value of a field of any width (R9, R10). -/
def toSigned {w : Nat} (f : BitVec w) : Int := f.toInt

/-- `norm32(n)` (R11): what every value written to a register and every next pc goes through. -/
def norm32 (n : Int) : Word := toBinary 32 n

/-- `sint(v)` (R9). -/
def sint (v : Word) : Int := toSigned v

/-- `uint(v)` (R9). -/
def uint (v : Word) : Int := (v.toNat : Int)

/-- `n & ~1` on an unbounded two's-complement integer (R9, R122): bit 0 cleared, so rounded down to an even integer. -/
def clearBit0 (n : Int) : Int := n - n % 2

/-! ## Registers (R20 to R25) -/

/-- Register 0 of a core with `X0Hardwired = true`, which always reads 0 and discards writes (R21, D12). -/
abbrev regPinned (c : Config) (r : Reg) : Prop := c.x0Hardwired = true ∧ r = 0#5

/-- `x[r]`. -/
def State.readReg (s : State) (r : Reg) : Word :=
  if regPinned s.cfg r then 0#32 else s.x[r.toNat]'r.isLt

/-- `x[r] <- v`, on the single write port (R21, R23). -/
def State.writeReg (s : State) (r : Reg) (v : Word) : State :=
  if regPinned s.cfg r then s else s.setX (s.x.set r.toNat v r.isLt)

/-- The link write of JAL and JALR, skipped when rd is 0 (R21, R122, R160). -/
def State.writeLink (s : State) (rd : Reg) (v : Word) : State :=
  if rd = 0#5 then s else s.writeReg rd v

/-- All 32 registers as a read returns them (log entry 13). -/
def State.visibleRegs (s : State) : Vector Word 32 :=
  if s.cfg.x0Hardwired then s.x.set 0 0#32 else s.x

/-! ## The pc (R26, R27) -/

/-- `norm32(pc + n)`, the pc taken as an unsigned byte address. -/
def State.pcPlus (s : State) (n : Int) : Word := norm32 (uint s.pc + n)

/-- `pc <- pc + 4`. -/
def State.advance (s : State) : State := s.setPc (s.pcPlus 4)

/-! ## Word stores -/

/-- The word at an index; an unlisted one is 0. -/
def Memory.read : Memory → Nat → Word
  | [], _ => 0#32
  | (k, v) :: m, i => if k = i then v else Memory.read m i

/-- `M[i] <- v`, keeping the canonical form: writing 0 removes the entry. -/
def Memory.write : Memory → Nat → Word → Memory
  | [], i, v => if v = 0#32 then [] else [(i, v)]
  | (k, u) :: m, i, v =>
    if i < k then (if v = 0#32 then (k, u) :: m else (i, v) :: (k, u) :: m)
    else if i = k then (if v = 0#32 then m else (i, v) :: m)
    else (k, u) :: Memory.write m i v

/-! ## The region router and the memory primitives (20_memory.md R42 to R47) -/

/-- Where an effective address leads. -/
inductive Region where
  | stack (i : Nat)
  | data (i : Nat)
  | unmapped
  deriving DecidableEq, Repr

/-- The address lies in the region of `size` words at `base`. -/
abbrev inRegion (base : Word) (size : Nat) (ea : Int) : Prop := uint base ≤ ea ∧ ea < uint base + 4 * size

/-- `floor((EA - base) / 4)`: the index of the containing word (R42, R44, D7). -/
def wordIndex (base : Word) (ea : Int) : Nat := ((ea - uint base) / 4).toNat

/-- `Route(EA)` (R42): the alignment test, then the stack region, then the data region. -/
def route (c : Config) (ea : Int) : Region :=
  if c.alignCheck = true ∧ ea % 4 ≠ 0 then .unmapped
  else if c.stackEnabled = true ∧ inRegion c.stackBase c.stackSize ea then .stack (wordIndex c.stackBase ea)
  else if inRegion c.memStart c.memSize ea then .data (wordIndex c.memStart ea)
  else .unmapped

/-- `MemRead(EA, 4)` (R46). -/
def State.memRead (s : State) (ea : Int) : Word :=
  match route s.cfg ea with
  | .stack i => s.stackMem.read i
  | .data i => s.dataMem.read i
  | .unmapped => 0#32

/-- `MemWrite(EA, 4, v)` (R47). -/
def State.memWrite (s : State) (ea : Int) (v : Word) : State :=
  match route s.cfg ea with
  | .stack i => s.setStackMem (s.stackMem.write i v)
  | .data i => s.setDataMem (s.dataMem.write i v)
  | .unmapped => s

/-! ## Stops and the trace -/

/-- `stop <Status>` (R13): the run ends, and nothing else changes (R204). -/
def State.stop (s : State) (st : Status) : State := s.setStatus st

/-- `trace(pc, x)`: append one record (R13, R86). -/
def State.record (s : State) : State := s.setTrace (s.trace ++ [⟨s.pc, s.visibleRegs⟩])

/-- The record of a step that executed its instruction: one that goes on, and HALT (R84, R86). A step that stops by R81,
R82 or R88 appends nothing. -/
def State.recordExecuted (s : State) : State :=
  match s.status with
  | .running | .halted => s.record
  | .ended | .faultedFetchMisaligned | .refusedDecodeError => s

end Sys2Proof.Machine
end

