-- ==== Sys2Proof/Machine/Operands.lean ====
section
/-! DEFINITION. Operands: the arithmetic results of the ALU (41_r_type.md, R121), the effective address (R41) and the
targets of control transfers (R122, R150, R160). The comparisons are in Flags.lean. -/

namespace Sys2Proof.Machine

/-! ## ALU results, on the signed values of the operands (R25, R100, R108) -/

/-- `sint(a) + sint(b)` (R101). -/
def aluAdd (a b : Word) : Word := norm32 (sint a + sint b)

/-- `sint(a) - sint(b)` (R102). -/
def aluSub (a b : Word) : Word := norm32 (sint a - sint b)

/-- `sint(a) >> uint(b[4:0])`, sign-extending (R104, 90_conflicts.md C2). -/
def aluSra (a b : Word) : Word := norm32 (sint a >>> (b.extractLsb' 0 5).toNat)

/-- Bitwise or of the patterns (R105). -/
def aluOr (a b : Word) : Word := a ||| b

/-- Bitwise and of the patterns (R106). -/
def aluAnd (a b : Word) : Word := a &&& b

/-- A register plus an assembled immediate (R121). -/
def aluAddImm (a : Word) (imm : BitVec 12) : Word := norm32 (sint a + toSigned imm)

/-! ## Addresses -/

/-- `EA = sint(base) + imm`: an exact integer, not reduced modulo 2^32 (R41, D3). -/
def effAddr (base : Word) (imm : BitVec 12) : Int := sint base + toSigned imm

/-- The target of JALR, `(sint(base) + imm) & ~1`, through `norm32` (R122, R27). -/
def jalrTarget (base : Word) (imm : BitVec 12) : Word := norm32 (clearBit0 (sint base + toSigned imm))

/-- The next pc of a branch: `pc + imm` if taken, `pc + 4` if not (R150). -/
def State.branchTarget (s : State) (taken : Bool) (imm : BitVec 13) : Word :=
  if taken then s.pcPlus (toSigned imm) else s.pcPlus 4

/-- The target of JAL, `pc + imm` (R160). -/
def State.jalTarget (s : State) (imm : BitVec 21) : Word := s.pcPlus (toSigned imm)

/-- The link value: `pc + 4`, the address of the next instruction (R122, R160, R161). -/
def State.linkValue (s : State) : Word := s.pcPlus 4

end Sys2Proof.Machine
end

