-- ==== Sys2Proof/Machine/Flags.lean ====
section
/-! DEFINITION. Comparisons. The core has no flags: "There are no status flags, condition codes or predicates. Branches
compare two registers directly" (R29). What a flag unit would compute elsewhere is these three functions of two patterns. -/

namespace Sys2Proof.Machine

/-- SLT's result: 1 if `sint(a) < sint(b)`, else 0 (R103). -/
def aluSlt (a b : Word) : Word := if sint a < sint b then 1#32 else 0#32

/-- BEQ's condition: the patterns are equal (R150, R151). -/
def condEq (a b : Word) : Bool := a == b

/-- BNE's condition: the patterns differ (R150, R152). -/
def condNe (a b : Word) : Bool := a != b

end Sys2Proof.Machine
end

