-- ==== Sys2Proof/Machine/BType.lean ====
section
/-! DEFINITION. The B-type instructions (44_b_type.md). The halt sentinel never reaches them (R64). -/

namespace Sys2Proof.Machine

/-- Branch resolution (R150): `pc + imm` if taken, else `pc + 4`; nothing else changes. -/
def State.branch (s : State) (taken : Bool) (imm : BitVec 13) : Result := .next (s.setPc (s.branchTarget taken imm))

/-- BEQ (R151). -/
def execBeq (rs1 rs2 : Reg) (imm : BitVec 13) (s : State) : Result :=
  s.branch (condEq (s.readReg rs1) (s.readReg rs2)) imm

/-- BNE (R152). -/
def execBne (rs1 rs2 : Reg) (imm : BitVec 13) (s : State) : Result :=
  s.branch (condNe (s.readReg rs1) (s.readReg rs2)) imm

/-- BNOP, funct3 010: never taken (R153). -/
def execBnop010 (_rs1 _rs2 : Reg) (imm : BitVec 13) (s : State) : Result := s.branch false imm

/-- BNOP, funct3 011: never taken (R153). -/
def execBnop011 (_rs1 _rs2 : Reg) (imm : BitVec 13) (s : State) : Result := s.branch false imm

/-- BNOP, funct3 100: never taken (R153). -/
def execBnop100 (_rs1 _rs2 : Reg) (imm : BitVec 13) (s : State) : Result := s.branch false imm

/-- BNOP, funct3 101: never taken (R153). -/
def execBnop101 (_rs1 _rs2 : Reg) (imm : BitVec 13) (s : State) : Result := s.branch false imm

/-- BNOP, funct3 110: never taken (R153). -/
def execBnop110 (_rs1 _rs2 : Reg) (imm : BitVec 13) (s : State) : Result := s.branch false imm

/-- BNOP, funct3 111: never taken (R153). -/
def execBnop111 (_rs1 _rs2 : Reg) (imm : BitVec 13) (s : State) : Result := s.branch false imm

end Sys2Proof.Machine
end

