-- ==== Sys2Proof/Machine/RType.lean ====
section
/-! DEFINITION. The R-type instructions (41_r_type.md). funct7 is ignored by every one of them once decoding has chosen
the instruction (R69). -/

namespace Sys2Proof.Machine

/-- What an instruction that writes rd and falls through does with its result (R100): `x[rd] <- v; pc <- pc + 4`. -/
def State.finish (s : State) (rd : Reg) (v : Word) : Result := .next (s.writeReg rd v).advance

/-- ADD (R101). -/
def execAdd (rd rs1 rs2 : Reg) (s : State) : Result :=
  s.finish rd (aluAdd (s.readReg rs1) (s.readReg rs2))

/-- SUB (R102). -/
def execSub (_funct7 : BitVec 7) (rd rs1 rs2 : Reg) (s : State) : Result :=
  s.finish rd (aluSub (s.readReg rs1) (s.readReg rs2))

/-- SLT (R103). -/
def execSlt (_funct7 : BitVec 7) (rd rs1 rs2 : Reg) (s : State) : Result :=
  s.finish rd (aluSlt (s.readReg rs1) (s.readReg rs2))

/-- SRA (R104). -/
def execSra (_funct7 : BitVec 7) (rd rs1 rs2 : Reg) (s : State) : Result :=
  s.finish rd (aluSra (s.readReg rs1) (s.readReg rs2))

/-- OR (R105). -/
def execOr (_funct7 : BitVec 7) (rd rs1 rs2 : Reg) (s : State) : Result :=
  s.finish rd (aluOr (s.readReg rs1) (s.readReg rs2))

/-- AND (R106). -/
def execAnd (_funct7 : BitVec 7) (rd rs1 rs2 : Reg) (s : State) : Result :=
  s.finish rd (aluAnd (s.readReg rs1) (s.readReg rs2))

/-- RZERO, funct3 001 (R107). -/
def execRzero001 (_funct7 : BitVec 7) (rd _rs1 _rs2 : Reg) (s : State) : Result := s.finish rd 0#32

/-- RZERO, funct3 011 (R107). -/
def execRzero011 (_funct7 : BitVec 7) (rd _rs1 _rs2 : Reg) (s : State) : Result := s.finish rd 0#32

/-- RZERO, funct3 100 (R107). -/
def execRzero100 (_funct7 : BitVec 7) (rd _rs1 _rs2 : Reg) (s : State) : Result := s.finish rd 0#32

end Sys2Proof.Machine
end

