-- ==== Sys2Proof/Machine/IType.lean ====
section
/-! DEFINITION. The I-type instructions (42_i_type.md). funct3 is not read (R70). -/

namespace Sys2Proof.Machine

/-- LW (R120). -/
def execLw (_funct3 : BitVec 3) (rd rs1 : Reg) (imm : BitVec 12) (s : State) : Result :=
  s.finish rd (s.memRead (effAddr (s.readReg rs1) imm))

/-- ADDI (R121). -/
def execAddi (_funct3 : BitVec 3) (rd rs1 : Reg) (imm : BitVec 12) (s : State) : Result :=
  s.finish rd (aluAddImm (s.readReg rs1) imm)

/-- JALR (R122): with `JalrLinkFirst = true` alone, rs1 is read after the link write (R24, D5). -/
def execJalr (_funct3 : BitVec 3) (rd rs1 : Reg) (imm : BitVec 12) (s : State) : Result :=
  let linked := s.writeLink rd s.linkValue
  let base := if s.cfg.jalrLinkFirst then linked.readReg rs1 else s.readReg rs1
  .next (linked.setPc (jalrTarget base imm))

end Sys2Proof.Machine
end

