-- ==== Sys2Proof/Machine/JType.lean ====
section
/-! DEFINITION. The J-type instruction (45_j_type.md). -/

namespace Sys2Proof.Machine

/-- JAL (R160). -/
def execJal (rd : Reg) (imm : BitVec 21) (s : State) : Result :=
  .next ((s.writeLink rd s.linkValue).setPc (s.jalTarget imm))

end Sys2Proof.Machine
end

