-- ==== Sys2Proof/Machine/SType.lean ====
section
/-! DEFINITION. The S-type instruction (43_s_type.md). funct3 is not read (R70). -/

namespace Sys2Proof.Machine

/-- SW (R140). -/
def execSw (_funct3 : BitVec 3) (rs1 rs2 : Reg) (imm : BitVec 12) (s : State) : Result :=
  .next (s.memWrite (effAddr (s.readReg rs1) imm) (s.readReg rs2)).advance

end Sys2Proof.Machine
end

