-- ==== Sys2Proof/Machine/System.lean ====
section
/-! DEFINITION. The two instructions of no format family: HALT and INVALID (40_step.md R84, R87, R88). -/

namespace Sys2Proof.Machine

/-- HALT (R84): the run stops as Halted; pc, registers and memory are unchanged. Its trace record is appended by the step,
through `State.recordExecuted`. -/
def execHalt (s : State) : Result := .next (s.stop .halted)

/-- INVALID: a no-op under the Nop policy (R87), a stop as Refused(DecodeError) under the DecodeError policy (R88). -/
def execInvalid (_word : Word) (s : State) : Result :=
  match s.cfg.invalidOpcodePolicy with
  | .nop => .next s.advance
  | .decodeError => .next (s.stop .refusedDecodeError)

end Sys2Proof.Machine
end

