-- ==== Sys2Proof/Syntax.lean ====
section
/-! DEFINITION. The instructions: one constructor for each row of spec/opcode_table.json.
A field that a format extracts and the instruction ignores (R62: "A field a format does not use is still extracted, and
it is ignored by the instruction") is an operand too (log entry 11), so that an instruction stands for exactly one word. Operands come
in the order of the word's fields that hold them, high to low, with the immediate last. -/

namespace Sys2Proof

/-- The instructions of the core (30_encoding.md R63 to R73). Immediates are held at the width the spec assembles them to:
12 bits (I, S), 13 bits (B) and 21 bits (J). -/
inductive Instr where
  /-- HALT: the word equal to the halt sentinel (R64, R84). -/
  | halt
  /-- ADD (R101). -/
  | add (rd rs1 rs2 : Reg)
  /-- SUB (R102): every funct7 other than 0. -/
  | sub (funct7 : BitVec 7) (rd rs1 rs2 : Reg)
  /-- SLT (R103). -/
  | slt (funct7 : BitVec 7) (rd rs1 rs2 : Reg)
  /-- SRA (R104). -/
  | sra (funct7 : BitVec 7) (rd rs1 rs2 : Reg)
  /-- OR (R105). -/
  | orReg (funct7 : BitVec 7) (rd rs1 rs2 : Reg)
  /-- AND (R106). -/
  | andReg (funct7 : BitVec 7) (rd rs1 rs2 : Reg)
  /-- RZERO with funct3 001 (R107). -/
  | rzero001 (funct7 : BitVec 7) (rd rs1 rs2 : Reg)
  /-- RZERO with funct3 011 (R107). -/
  | rzero011 (funct7 : BitVec 7) (rd rs1 rs2 : Reg)
  /-- RZERO with funct3 100 (R107). -/
  | rzero100 (funct7 : BitVec 7) (rd rs1 rs2 : Reg)
  /-- LW (R120). -/
  | lw (funct3 : BitVec 3) (rd rs1 : Reg) (imm : BitVec 12)
  /-- ADDI (R121). -/
  | addi (funct3 : BitVec 3) (rd rs1 : Reg) (imm : BitVec 12)
  /-- JALR (R122). -/
  | jalr (funct3 : BitVec 3) (rd rs1 : Reg) (imm : BitVec 12)
  /-- SW (R140). -/
  | sw (funct3 : BitVec 3) (rs1 rs2 : Reg) (imm : BitVec 12)
  /-- BEQ (R151). -/
  | beq (rs1 rs2 : Reg) (imm : BitVec 13)
  /-- BNE (R152). -/
  | bne (rs1 rs2 : Reg) (imm : BitVec 13)
  /-- BNOP with funct3 010 (R153). -/
  | bnop010 (rs1 rs2 : Reg) (imm : BitVec 13)
  /-- BNOP with funct3 011 (R153). -/
  | bnop011 (rs1 rs2 : Reg) (imm : BitVec 13)
  /-- BNOP with funct3 100 (R153). -/
  | bnop100 (rs1 rs2 : Reg) (imm : BitVec 13)
  /-- BNOP with funct3 101 (R153). -/
  | bnop101 (rs1 rs2 : Reg) (imm : BitVec 13)
  /-- BNOP with funct3 110 (R153). -/
  | bnop110 (rs1 rs2 : Reg) (imm : BitVec 13)
  /-- BNOP with funct3 111 (R153). -/
  | bnop111 (rs1 rs2 : Reg) (imm : BitVec 13)
  /-- JAL (R160). -/
  | jal (rd : Reg) (imm : BitVec 21)
  /-- INVALID (R87, R88): the whole word, whose opcode is outside the table of R63. -/
  | invalid (word : Word)
  deriving DecidableEq, Repr

end Sys2Proof
end

