-- ==== Sys2Proof/Machine/Dispatch.lean ====
section
/-! DEFINITION. The dispatch: one arm per constructor of Instr (40_step.md R85). -/

namespace Sys2Proof.Machine

def exec (i : Instr) (s : State) : Host.Outcome State Fault Refusal :=
  match i with
  | .halt => Sys2Proof.Machine.execHalt s
  -- R-type
  | .add rd rs1 rs2 => Sys2Proof.Machine.execAdd rd rs1 rs2 s
  | .sub funct7 rd rs1 rs2 => Sys2Proof.Machine.execSub funct7 rd rs1 rs2 s
  | .slt funct7 rd rs1 rs2 => Sys2Proof.Machine.execSlt funct7 rd rs1 rs2 s
  | .sra funct7 rd rs1 rs2 => Sys2Proof.Machine.execSra funct7 rd rs1 rs2 s
  | .orReg funct7 rd rs1 rs2 => Sys2Proof.Machine.execOr funct7 rd rs1 rs2 s
  | .andReg funct7 rd rs1 rs2 => Sys2Proof.Machine.execAnd funct7 rd rs1 rs2 s
  | .rzero001 funct7 rd rs1 rs2 => Sys2Proof.Machine.execRzero001 funct7 rd rs1 rs2 s
  | .rzero011 funct7 rd rs1 rs2 => Sys2Proof.Machine.execRzero011 funct7 rd rs1 rs2 s
  | .rzero100 funct7 rd rs1 rs2 => Sys2Proof.Machine.execRzero100 funct7 rd rs1 rs2 s
  -- I-type
  | .lw funct3 rd rs1 imm => Sys2Proof.Machine.execLw funct3 rd rs1 imm s
  | .addi funct3 rd rs1 imm => Sys2Proof.Machine.execAddi funct3 rd rs1 imm s
  | .jalr funct3 rd rs1 imm => Sys2Proof.Machine.execJalr funct3 rd rs1 imm s
  -- S-type
  | .sw funct3 rs1 rs2 imm => Sys2Proof.Machine.execSw funct3 rs1 rs2 imm s
  -- B-type
  | .beq rs1 rs2 imm => Sys2Proof.Machine.execBeq rs1 rs2 imm s
  | .bne rs1 rs2 imm => Sys2Proof.Machine.execBne rs1 rs2 imm s
  | .bnop010 rs1 rs2 imm => Sys2Proof.Machine.execBnop010 rs1 rs2 imm s
  | .bnop011 rs1 rs2 imm => Sys2Proof.Machine.execBnop011 rs1 rs2 imm s
  | .bnop100 rs1 rs2 imm => Sys2Proof.Machine.execBnop100 rs1 rs2 imm s
  | .bnop101 rs1 rs2 imm => Sys2Proof.Machine.execBnop101 rs1 rs2 imm s
  | .bnop110 rs1 rs2 imm => Sys2Proof.Machine.execBnop110 rs1 rs2 imm s
  | .bnop111 rs1 rs2 imm => Sys2Proof.Machine.execBnop111 rs1 rs2 imm s
  -- J-type
  | .jal rd imm => Sys2Proof.Machine.execJal rd imm s
  -- an opcode outside the table
  | .invalid word => Sys2Proof.Machine.execInvalid word s

end Sys2Proof.Machine
end

