-- ==== Sys2Proof/WellFormed.lean ====
section
/-! DEFINITION. The well-formed instructions: those some word decodes to, the halt sentinel apart (30_encoding.md R63 to R73). -/

namespace Sys2Proof

/-- The seven opcodes of the table of R63. -/
def tableOpcodes : List (BitVec 7) :=
  [0b0110011#7, 0b0000011#7, 0b0010011#7, 0b1100111#7, 0b0100011#7, 0b1100011#7, 0b1101111#7]

/-- The checks: SUB's funct7 is not 0 (R69), B and J immediates are even (R67, R68), and the opcode of an INVALID word is
outside the table (R73). The other fields take every value of their width.
That the word is not the halt sentinel (R64) depends on the configuration, so `Instr.admitted` of Decode.lean adds it. -/
def Instr.wellFormed (i : Instr) : Bool :=
  match i with
  | .sub funct7 _ _ _ => funct7 != 0#7
  | .beq _ _ imm | .bne _ _ imm | .bnop010 _ _ imm | .bnop011 _ _ imm | .bnop100 _ _ imm
  | .bnop101 _ _ imm | .bnop110 _ _ imm | .bnop111 _ _ imm => !imm.getLsbD 0
  | .jal _ imm => !imm.getLsbD 0
  | .invalid word => !tableOpcodes.contains (word.extractLsb' 0 7)
  | .halt | .add _ _ _ | .slt _ _ _ _ | .sra _ _ _ _ | .orReg _ _ _ _ | .andReg _ _ _ _
  | .rzero001 _ _ _ _ | .rzero011 _ _ _ _ | .rzero100 _ _ _ _
  | .lw _ _ _ _ | .addi _ _ _ _ | .jalr _ _ _ _ | .sw _ _ _ _ => true

/-- The instruction is well formed. -/
abbrev Instr.WellFormed (i : Instr) : Prop := i.wellFormed = true

end Sys2Proof
end

