-- ==== Sys2Proof/Decode.lean ====
section
/-! DEFINITION. The decoder (30_encoding.md) and, after it, the encoder written from the same tables.
Decoding is total: every word is exactly one instruction (R74), so the decoder refuses no word. A malformed input LINE is
refused by the loader (Machine/Load.lean, R225). -/

namespace Sys2Proof

/-- The classifier's output (R63). -/
inductive Category where
  | r
  | i
  | s
  | b
  | j
  | invalid
  deriving DecidableEq, Repr

/-! ## Fields (R61) -/

def funct7Of (w : Word) : BitVec 7 := w.extractLsb' 25 7
def rs2Of (w : Word) : Reg := w.extractLsb' 20 5
def rs1Of (w : Word) : Reg := w.extractLsb' 15 5
def funct3Of (w : Word) : BitVec 3 := w.extractLsb' 12 3
def rdOf (w : Word) : Reg := w.extractLsb' 7 5
def opcodeOf (w : Word) : BitVec 7 := w.extractLsb' 0 7

/-! ## Immediates (R65 to R68), as the bit strings whose two's-complement value the spec takes -/

/-- `w[31:20]` (R65). -/
def immI (w : Word) : BitVec 12 := w.extractLsb' 20 12

/-- `w[31:25] ++ w[11:7]` (R66). -/
def immS (w : Word) : BitVec 12 := w.extractLsb' 25 7 ++ w.extractLsb' 7 5

/-- `w[31] ++ w[7] ++ w[30:25] ++ w[11:8] ++ 0` (R67). -/
def immB (w : Word) : BitVec 13 :=
  w.extractLsb' 31 1 ++ (w.extractLsb' 7 1 ++ (w.extractLsb' 25 6 ++ (w.extractLsb' 8 4 ++ 0#1)))

/-- `w[31] ++ w[19:12] ++ w[20] ++ w[30:21] ++ 0` (R68). -/
def immJ (w : Word) : BitVec 21 :=
  w.extractLsb' 31 1 ++ (w.extractLsb' 12 8 ++ (w.extractLsb' 20 1 ++ (w.extractLsb' 21 10 ++ 0#1)))

/-! ## Classification and selection -/

/-- The exact-match table of R63. -/
def classify (opcode : BitVec 7) : Category :=
  if opcode = 0b0110011#7 then .r
  else if opcode = 0b0000011#7 then .i
  else if opcode = 0b0010011#7 then .i
  else if opcode = 0b1100111#7 then .i
  else if opcode = 0b0100011#7 then .s
  else if opcode = 0b1100011#7 then .b
  else if opcode = 0b1101111#7 then .j
  else .invalid

/-- Category R: chosen by funct3, and by funct7 when funct3 is 000, ADD being tested before SUB (R69, R75). -/
def selectR (w : Word) : Instr :=
  if funct3Of w = 0b000#3 then
    if funct7Of w = 0b0000000#7 then .add (rdOf w) (rs1Of w) (rs2Of w)
    else .sub (funct7Of w) (rdOf w) (rs1Of w) (rs2Of w)
  else if funct3Of w = 0b010#3 then .slt (funct7Of w) (rdOf w) (rs1Of w) (rs2Of w)
  else if funct3Of w = 0b101#3 then .sra (funct7Of w) (rdOf w) (rs1Of w) (rs2Of w)
  else if funct3Of w = 0b110#3 then .orReg (funct7Of w) (rdOf w) (rs1Of w) (rs2Of w)
  else if funct3Of w = 0b111#3 then .andReg (funct7Of w) (rdOf w) (rs1Of w) (rs2Of w)
  else if funct3Of w = 0b001#3 then .rzero001 (funct7Of w) (rdOf w) (rs1Of w) (rs2Of w)
  else if funct3Of w = 0b011#3 then .rzero011 (funct7Of w) (rdOf w) (rs1Of w) (rs2Of w)
  else .rzero100 (funct7Of w) (rdOf w) (rs1Of w) (rs2Of w)

/-- Category I: chosen by the opcode alone, for every funct3 (R70). -/
def selectI (w : Word) : Instr :=
  if opcodeOf w = 0b0000011#7 then .lw (funct3Of w) (rdOf w) (rs1Of w) (immI w)
  else if opcodeOf w = 0b0010011#7 then .addi (funct3Of w) (rdOf w) (rs1Of w) (immI w)
  else .jalr (funct3Of w) (rdOf w) (rs1Of w) (immI w)

/-- Category S: SW for every funct3 (R70). -/
def selectS (w : Word) : Instr := .sw (funct3Of w) (rs1Of w) (rs2Of w) (immS w)

/-- Category B: chosen by funct3 (R71). -/
def selectB (w : Word) : Instr :=
  if funct3Of w = 0b000#3 then .beq (rs1Of w) (rs2Of w) (immB w)
  else if funct3Of w = 0b001#3 then .bne (rs1Of w) (rs2Of w) (immB w)
  else if funct3Of w = 0b010#3 then .bnop010 (rs1Of w) (rs2Of w) (immB w)
  else if funct3Of w = 0b011#3 then .bnop011 (rs1Of w) (rs2Of w) (immB w)
  else if funct3Of w = 0b100#3 then .bnop100 (rs1Of w) (rs2Of w) (immB w)
  else if funct3Of w = 0b101#3 then .bnop101 (rs1Of w) (rs2Of w) (immB w)
  else if funct3Of w = 0b110#3 then .bnop110 (rs1Of w) (rs2Of w) (immB w)
  else .bnop111 (rs1Of w) (rs2Of w) (immB w)

/-- Category J: JAL for every value of bits 31..7 (R72). -/
def selectJ (w : Word) : Instr := .jal (rdOf w) (immJ w)

/-- The decoder: the sentinel is compared first, on all 32 bits, and only then is the opcode classified (R64, R75). -/
def decode (sentinel w : Word) : Instr :=
  if w = sentinel then .halt
  else
    match classify (opcodeOf w) with
    | .r => selectR w
    | .i => selectI w
    | .s => selectS w
    | .b => selectB w
    | .j => selectJ w
    | .invalid => .invalid w

/-- The instruction the decoder reads, under the default sentinel, from an opcode-table row's word of `nbits` bits; the
bits above `nbits` are 0. No instruction is longer than 32 bits (R60). -/
def decodeTableWord (nbits w : Nat) : Option Instr :=
  if nbits ≤ 32 then some (decode Config.defaultSentinel (BitVec.ofNat 32 (w % 2 ^ nbits))) else none

/-! ## The encoder -/

/-- The R format (R62). -/
def packR (funct7 : BitVec 7) (rs2 rs1 : Reg) (funct3 : BitVec 3) (rd : Reg) (opcode : BitVec 7) : Word :=
  funct7 ++ (rs2 ++ (rs1 ++ (funct3 ++ (rd ++ opcode))))

/-- The I format (R62). -/
def packI (imm : BitVec 12) (rs1 : Reg) (funct3 : BitVec 3) (rd : Reg) (opcode : BitVec 7) : Word :=
  imm ++ (rs1 ++ (funct3 ++ (rd ++ opcode)))

/-- The S format (R62). -/
def packS (imm : BitVec 12) (rs2 rs1 : Reg) (funct3 : BitVec 3) (opcode : BitVec 7) : Word :=
  packR (imm.extractLsb' 5 7) rs2 rs1 funct3 (imm.extractLsb' 0 5) opcode

/-- The B format (R62). The low bit of the immediate has no place in the word. -/
def packB (imm : BitVec 13) (rs2 rs1 : Reg) (funct3 : BitVec 3) (opcode : BitVec 7) : Word :=
  packR (imm.extractLsb' 12 1 ++ imm.extractLsb' 5 6) rs2 rs1 funct3
    (imm.extractLsb' 1 4 ++ imm.extractLsb' 11 1) opcode

/-- The J format (R62). The low bit of the immediate has no place in the word. -/
def packJ (imm : BitVec 21) (rd : Reg) (opcode : BitVec 7) : Word :=
  imm.extractLsb' 20 1 ++ (imm.extractLsb' 1 10 ++ (imm.extractLsb' 11 1 ++
    (imm.extractLsb' 12 8 ++ (rd ++ opcode))))

/-- The word of an instruction under a sentinel. -/
def encode (sentinel : Word) (i : Instr) : Word :=
  match i with
  | .halt => sentinel
  | .add rd rs1 rs2 => packR 0b0000000#7 rs2 rs1 0b000#3 rd 0b0110011#7
  | .sub funct7 rd rs1 rs2 => packR funct7 rs2 rs1 0b000#3 rd 0b0110011#7
  | .slt funct7 rd rs1 rs2 => packR funct7 rs2 rs1 0b010#3 rd 0b0110011#7
  | .sra funct7 rd rs1 rs2 => packR funct7 rs2 rs1 0b101#3 rd 0b0110011#7
  | .orReg funct7 rd rs1 rs2 => packR funct7 rs2 rs1 0b110#3 rd 0b0110011#7
  | .andReg funct7 rd rs1 rs2 => packR funct7 rs2 rs1 0b111#3 rd 0b0110011#7
  | .rzero001 funct7 rd rs1 rs2 => packR funct7 rs2 rs1 0b001#3 rd 0b0110011#7
  | .rzero011 funct7 rd rs1 rs2 => packR funct7 rs2 rs1 0b011#3 rd 0b0110011#7
  | .rzero100 funct7 rd rs1 rs2 => packR funct7 rs2 rs1 0b100#3 rd 0b0110011#7
  | .lw funct3 rd rs1 imm => packI imm rs1 funct3 rd 0b0000011#7
  | .addi funct3 rd rs1 imm => packI imm rs1 funct3 rd 0b0010011#7
  | .jalr funct3 rd rs1 imm => packI imm rs1 funct3 rd 0b1100111#7
  | .sw funct3 rs1 rs2 imm => packS imm rs2 rs1 funct3 0b0100011#7
  | .beq rs1 rs2 imm => packB imm rs2 rs1 0b000#3 0b1100011#7
  | .bne rs1 rs2 imm => packB imm rs2 rs1 0b001#3 0b1100011#7
  | .bnop010 rs1 rs2 imm => packB imm rs2 rs1 0b010#3 0b1100011#7
  | .bnop011 rs1 rs2 imm => packB imm rs2 rs1 0b011#3 0b1100011#7
  | .bnop100 rs1 rs2 imm => packB imm rs2 rs1 0b100#3 0b1100011#7
  | .bnop101 rs1 rs2 imm => packB imm rs2 rs1 0b101#3 0b1100011#7
  | .bnop110 rs1 rs2 imm => packB imm rs2 rs1 0b110#3 0b1100011#7
  | .bnop111 rs1 rs2 imm => packB imm rs2 rs1 0b111#3 0b1100011#7
  | .jal rd imm => packJ imm rd 0b1101111#7
  | .invalid word => word

/-- The instructions a core with this sentinel admits: the well-formed ones whose word is not taken by HALT (R64, R74). -/
def Instr.admitted (sentinel : Word) (i : Instr) : Bool :=
  i.wellFormed && (i == .halt || encode sentinel i != sentinel)

end Sys2Proof
end

