-- ==== Sys2Proof/Machine/Fetch.lean ====
section
/-! DEFINITION. What a step does before it executes: the tests of 60_exceptions.md R203 in their order, and the fetch
(40_step.md R81 to R83). And the placing of one word where the next step fetches it. -/

namespace Sys2Proof.Machine
namespace State

/-- `uint(pc) >= 4 * ProgLen` (R81). -/
abbrev outsideProgram (s : State) : Prop := 4 * s.program.length ≤ s.pc.toNat

/-- `pc[1:0] != 00 and MisalignedFetchPolicy = Fault` (R82). -/
abbrev fetchFaults (s : State) : Prop :=
  s.pc.extractLsb' 0 2 ≠ 0#2 ∧ s.cfg.misalignedFetchPolicy = .fault

/-- The status a step stops with before it fetches anything, if it does: the range test first, then the misalignment
test (R203, D22). -/
def stopBeforeFetch (s : State) : Option Status :=
  if s.outsideProgram then some .ended
  else if s.fetchFaults then some .faultedFetchMisaligned
  else none

/-- `Program[uint(pc) >> 2]` (R83). Only an in-range pc is fetched from, so the default is never used. -/
def fetchWord (s : State) : Word := s.program.getD (s.pc.toNat / 4) 0#32

/-- The instruction at the pc (R64, R85). -/
def fetched (s : State) : Instr := decode s.cfg.haltSentinel s.fetchWord

/-- The program with word `w` at index `i`, filled up with zero words if it is shorter. -/
def placeWord (p : List Word) (i : Nat) (w : Word) : List Word :=
  p.take i ++ List.replicate (i - p.length) 0#32 ++ w :: p.drop (i + 1)

/-- A pc a fetch accepts: the same, or, where the fetch would fault, with its two low bits cleared. -/
def fetchablePc (s : State) : Word :=
  if s.fetchFaults then s.pc - (s.pc &&& 3#32) else s.pc

/-- The state with a word placed in the program store at the index the next step fetches from, and with what that fetch
needs: status Running and a pc that does not fault (log entry 3). -/
def placeNext (s : State) (w : Word) : State :=
  ((s.setPc s.fetchablePc).setStatus .running).setProgram
    (placeWord s.program (s.fetchablePc.toNat / 4) w)

end State
end Sys2Proof.Machine
end

