-- ==== Sys2Proof/Machine/Step.lean ====
section
/-! DEFINITION. One step of the core (40_step.md R80). -/

namespace Sys2Proof.Machine

/-- The step of R80. A step is taken only while the status is Running. It stops before the fetch by R81 or R82, or executes
the instruction at the pc and appends the trace record of R86. -/
def step (s : State) : Host.Outcome State Fault Refusal :=
  match s.status with
  | .running =>
    match s.stopBeforeFetch with
    | some st => .next (s.stop st)
    | none =>
      match exec s.fetched s with
      | .next t => .next t.recordExecuted
      | .fault r => .fault r
      | .refused r => .refused r
  | .halted | .ended | .faultedFetchMisaligned | .refusedDecodeError => .fault .notRunning

/-- The state with the instruction word of `nbits` bits `w` stored where `step` fetches its next instruction. -/
def State.withFetchWord (s : State) (nbits w : Nat) : State :=
  s.placeNext (BitVec.ofNat 32 (w % 2 ^ nbits))

end Sys2Proof.Machine
end

