-- ==== Sys2Proof/Machine/Datapath.lean ====
section
/-! DEFINITION. The block interface (10_state.md R37, R38): the combinational decode-execute datapath and the state update
around it. It is a second description of a step, made of ports: "the two are the same" (R37). `step` does not use it. -/

namespace Sys2Proof.Machine

/-- The input ports of R37. The configuration is the datapath's other argument. -/
structure PortsIn where
  instr    : Word
  pc       : Word
  rs1Data  : Word
  rs2Data  : Word
  loadData : Word
  deriving DecidableEq, Repr

/-- The output ports of R37. `ea` is "a signed integer of at least 34 bits"; here an exact integer. -/
structure PortsOut where
  rs1Idx      : Reg
  rs2Idx      : Reg
  rdWe        : Bool
  rdIdx       : Reg
  rdWdata     : Word
  memRe       : Bool
  memWe       : Bool
  ea          : Int
  memWdata    : Word
  nextPc      : Word
  halt        : Bool
  decodeError : Bool
  deriving DecidableEq, Repr

/-- The ports of an instruction that writes nothing and falls through. DESIGN CHOICE (log entry 9): `rd_wdata`
and `ea` carry 0 here, where the enables that go with them are 0, and no state update takes them. -/
def portsIdle (p : PortsIn) : PortsOut where
  rs1Idx      := rs1Of p.instr
  rs2Idx      := rs2Of p.instr
  rdWe        := false
  rdIdx       := rdOf p.instr
  rdWdata     := 0#32
  memRe       := false
  memWe       := false
  ea          := 0
  memWdata    := p.rs2Data
  nextPc      := norm32 (uint p.pc + 4)
  halt        := false
  decodeError := false

/-- The ports of an instruction that writes `v` to rd. -/
def portsWrite (p : PortsIn) (v : Word) : PortsOut := { portsIdle p with rdWe := true, rdWdata := v }

/-- The ports of a branch. -/
def portsBranch (p : PortsIn) (taken : Bool) (imm : BitVec 13) : PortsOut :=
  { portsIdle p with nextPc := if taken then norm32 (uint p.pc + toSigned imm) else norm32 (uint p.pc + 4) }

/-- The ports of a jump: the link is written when rd is not 0. DESIGN CHOICE (log entry 9): `rd_wdata` carries the link value
when rd is 0 too, where `rd_we` is 0 and no state update takes it. -/
def portsJump (p : PortsIn) (rd : Reg) (target : Word) : PortsOut :=
  { portsIdle p with rdWe := rd != 0#5, rdWdata := norm32 (uint p.pc + 4), nextPc := target }

/-- What JALR adds its immediate to: the read port, or the link value it is about to write where `JalrLinkFirst` makes it
read rd = rs1 after the link write (R24, R122). -/
def jalrBase (c : Config) (p : PortsIn) (rd rs1 : Reg) : Word :=
  if c.jalrLinkFirst = true ∧ rd ≠ 0#5 ∧ rd = rs1 then norm32 (uint p.pc + 4) else p.rs1Data

/-- The decode-execute datapath: output ports from input ports (R37, R38). -/
def datapath (c : Config) (p : PortsIn) : PortsOut :=
  match decode c.haltSentinel p.instr with
  | .halt => { portsIdle p with halt := true, nextPc := p.pc }
  | .add _ _ _ => portsWrite p (aluAdd p.rs1Data p.rs2Data)
  | .sub _ _ _ _ => portsWrite p (aluSub p.rs1Data p.rs2Data)
  | .slt _ _ _ _ => portsWrite p (aluSlt p.rs1Data p.rs2Data)
  | .sra _ _ _ _ => portsWrite p (aluSra p.rs1Data p.rs2Data)
  | .orReg _ _ _ _ => portsWrite p (aluOr p.rs1Data p.rs2Data)
  | .andReg _ _ _ _ => portsWrite p (aluAnd p.rs1Data p.rs2Data)
  | .rzero001 _ _ _ _ | .rzero011 _ _ _ _ | .rzero100 _ _ _ _ => portsWrite p 0#32
  | .lw _ _ _ imm => { portsWrite p p.loadData with memRe := true, ea := effAddr p.rs1Data imm }
  | .addi _ _ _ imm => portsWrite p (aluAddImm p.rs1Data imm)
  | .jalr _ rd rs1 imm => portsJump p rd (jalrTarget (jalrBase c p rd rs1) imm)
  | .sw _ _ _ imm => { portsIdle p with memWe := true, ea := effAddr p.rs1Data imm }
  | .beq _ _ imm => portsBranch p (condEq p.rs1Data p.rs2Data) imm
  | .bne _ _ imm => portsBranch p (condNe p.rs1Data p.rs2Data) imm
  | .bnop010 _ _ _ | .bnop011 _ _ _ | .bnop100 _ _ _ | .bnop101 _ _ _ | .bnop110 _ _ _ | .bnop111 _ _ _ => portsIdle p
  | .jal rd imm => portsJump p rd (norm32 (uint p.pc + toSigned imm))
  | .invalid _ =>
    match c.invalidOpcodePolicy with
    | .nop => portsIdle p
    | .decodeError => { portsIdle p with decodeError := true, nextPc := p.pc }

/-- The register-file side of the inputs: `x[instr[19:15]]` and `x[instr[24:20]]` (R37), with a given load value. -/
def State.portsIn (s : State) (loadData : Word) : PortsIn where
  instr    := s.fetchWord
  pc       := s.pc
  rs1Data  := s.readReg (rs1Of s.fetchWord)
  rs2Data  := s.readReg (rs2Of s.fetchWord)
  loadData := loadData

/-- The settled output ports: the router answers the address the datapath gives, which does not depend on the load value. -/
def State.portsOut (s : State) : PortsOut :=
  datapath s.cfg (s.portsIn (s.memRead (datapath s.cfg (s.portsIn 0#32)).ea))

/-- The update at the end of a step (R37): `rd_wdata` into `x[rd_idx]` if `rd_we`, `mem_wdata` into the routed word if
`mem_we`, and `pc <- next_pc`; then the stop that `halt` or `decode_error` asks for (R84, R88). -/
def State.applyPorts (s : State) (o : PortsOut) : State :=
  let s := if o.rdWe then s.writeReg o.rdIdx o.rdWdata else s
  let s := if o.memWe then s.memWrite o.ea o.memWdata else s
  let s := s.setPc o.nextPc
  if o.halt then s.stop .halted
  else if o.decodeError then s.stop .refusedDecodeError
  else s

/-- One step described by the ports: the tests before the fetch, the datapath, the update and the trace record. -/
def datapathStep (s : State) : Result :=
  match s.status with
  | .running =>
    match s.stopBeforeFetch with
    | some st => .next (s.stop st)
    | none => .next (s.applyPorts s.portsOut).recordExecuted
  | .halted | .ended | .faultedFetchMisaligned | .refusedDecodeError => .fault .notRunning

end Sys2Proof.Machine
end

