-- ==== Sys2Proof/Machine/Load.lean ====
section
/-! DEFINITION. Loading a program from its text lines (70_reset_and_hazards.md R224 to R227). A line is the list of its
characters. Opening and reading the file itself is out of scope (00_scope.md R4). -/

namespace Sys2Proof.Machine

/-- White space. DESIGN CHOICE (log entry 7, safe): the spec names no characters; these are space, tab, line feed, vertical
tab, form feed and carriage return. Any other character makes its line malformed. -/
def isLineSpace (c : Char) : Bool :=
  [' ', '\t', '\n', Char.ofNat 11, Char.ofNat 12, '\r'].contains c

/-- The line without leading and trailing white space, its terminator included (R226). -/
def trimLine (l : List Char) : List Char :=
  ((l.dropWhile isLineSpace).reverse.dropWhile isLineSpace).reverse

/-- A binary digit. -/
def bitOfChar (c : Char) : Option Bool :=
  if c = '0' then some false else if c = '1' then some true else none

/-- The value of binary digits, most significant first. -/
def valueOfBits (bs : List Bool) : Nat := bs.foldl (fun n b => 2 * n + b.toNat) 0

/-- What a line is (R225, R226). -/
inductive LineResult where
  | skipped
  | word (w : Word)
  | malformed
  deriving DecidableEq, Repr

/-- A line, once trimmed: an empty one is skipped, 32 binary digits are a word whose bit 31 is the first character (R224),
and anything else is malformed (R225). -/
def parseLine (l : List Char) : LineResult :=
  let t := trimLine l
  if t = [] then .skipped
  else if t.length = 32 then
    match t.mapM bitOfChar with
    | some bs => .word (BitVec.ofNat 32 (valueOfBits bs))
    | none => .malformed
  else .malformed

/-- The program of a list of lines, or none if any line is malformed (R224, R225). -/
def loadLines : List (List Char) → Option (List Word)
  | [] => some []
  | l :: ls =>
    match parseLine l with
    | .malformed => none
    | .skipped => loadLines ls
    | .word w => (loadLines ls).map (w :: ·)

/-- The state a run starts in: reset with the loaded program (R220, R224), or already Refused(DecodeError), with no step, no
record and no program, if a line is malformed (R225, D16; what such a state holds: log entry 12). -/
def boot (c : Config) (lines : List (List Char)) : State :=
  match loadLines lines with
  | some p => State.resetWith c p
  | none => (State.resetWith c []).stop .refusedDecodeError

/-- The starting states of a batch: each program boots on its own (R227). -/
def bootBatch (c : Config) (inputs : List (List (List Char))) : List State := inputs.map (boot c)

end Sys2Proof.Machine
end

