-- ==== Sys2Proof/Machine/Run.lean ====
section
/-! DEFINITION. The host's run loop around the step: the step bound `MaxSteps` (40_step.md R90), the run to a stop, and the
normal end (70_reset_and_hazards.md R229). -/

namespace Sys2Proof.Machine

/-- A normal end: Halted or Ended (R229). Faulted and Refused are not (R35, R232). -/
def State.normalEnd (s : State) : Bool := s.status == .halted || s.status == .ended

/-- The host's bound is reached: as many steps were executed as `MaxSteps` allows. The trace has one record for each (R86).
DESIGN CHOICE (log entry 8, safe): a run still Running then is cut off, though its next step might only end it. -/
def State.atStepLimit (s : State) : Bool :=
  match s.cfg.maxSteps with
  | none => false
  | some n => decide (n ≤ s.trace.length)

/-- One turn of the host's loop: "When the bound is reached, the host stops the run; that is not a status of the core" (R90). -/
def hostStep (s : State) : Result :=
  if s.status = .running ∧ s.atStepLimit = true then .fault .stepLimit else step s

/-- The state in which a run stops within `fuel` turns of the host's loop; none if it has not stopped by then or was cut
off. -/
def runToStop : Nat → State → Option State
  | 0, s => if s.status = .running then none else some s
  | fuel + 1, s =>
    if s.status = .running then
      match hostStep s with
      | .next t => runToStop fuel t
      | .fault _ => none
      | .refused _ => none
    else some s

/-- A batch of programs, each run from its own starting state (R227). -/
def runBatch (fuel : Nat) (c : Config) (inputs : List (List (List Char))) : List (Option State) :=
  (bootBatch c inputs).map (runToStop fuel)

end Sys2Proof.Machine
end

