-- ==== Sys2Proof/Machine/Output.lean ====
section
/-! DEFINITION. The output of a run: trace lines and memory dump (70_reset_and_hazards.md R229 to R232). A line is the list
of its characters, with its line feed. -/

namespace Sys2Proof.Machine

/-- 32 binary digits, most significant first (R230). -/
def bitChars (w : Word) : List Char :=
  (List.range 32).map fun k => if w.getLsbD (31 - k) then '1' else '0'

/-- `0b` and 32 binary digits. -/
def binField (w : Word) : List Char := '0' :: 'b' :: bitChars w

/-- A hexadecimal digit, uppercase. -/
def hexChar (n : Nat) : Char :=
  ['0', '1', '2', '3', '4', '5', '6', '7', '8', '9', 'A', 'B', 'C', 'D', 'E', 'F'].getD n '0'

/-- 8 uppercase hexadecimal digits (R231). -/
def hexChars (w : Word) : List Char :=
  (List.range 8).map fun k => hexChar (w.toNat / 16 ^ (7 - k) % 16)

/-- A trace line: pc, then x0 to x31, one space between fields, and a line feed (R230, D17). -/
def traceLine (r : TraceRecord) : List Char :=
  binField r.pc ++ (r.x.toList.flatMap fun v => ' ' :: binField v) ++ ['\n']

/-- A dump line: `0x<address>:0b<word>` and a line feed, for data word `i` at `MemStart + 4*i` (R231, D17). -/
def dumpLine (s : State) (i : Nat) : List Char :=
  '0' :: 'x' :: hexChars (norm32 (uint s.cfg.memStart + 4 * i)) ++ ':' :: binField (s.dataMem.read i) ++ ['\n']

/-- The memory dump: one line for each data word in ascending order; the stack is not dumped (R231). -/
def memoryDump (s : State) : List (List Char) := (List.range s.cfg.memSize).map (dumpLine s)

/-- What the host outputs: the trace and then the dump after a normal end (R229). An abnormal stop gives no dump (R232), and
the spec names no other output of it, so none here (log entry 10). -/
def output (s : State) : Option (List (List Char)) :=
  if s.normalEnd then some (s.trace.map traceLine ++ memoryDump s) else none

end Sys2Proof.Machine
end

