-- ==== Sys2Proof/Safety.lean ====
section
/-! DEFINITION. The terms claims are stated in: which states are sound (the invariant), what it means that something is
unchanged, and what the common effects of instructions are. -/

namespace Sys2Proof.Machine

/-! ## What is unchanged -/

/-- Every register reads as before, but for the one named. -/
def RegsSameBut (rd : Option Reg) (s t : State) : Prop := ∀ r : Reg, rd ≠ some r → t.readReg r = s.readReg r

/-- Every word of both stores reads as before, and so does every data address. -/
def MemSame (s t : State) : Prop :=
  (∀ i, t.dataMem.read i = s.dataMem.read i) ∧ (∀ i, t.stackMem.read i = s.stackMem.read i) ∧
  ∀ ea, t.memRead ea = s.memRead ea

/-- Program store, configuration, run status and trace are as before. -/
def RunSame (s t : State) : Prop :=
  t.program = s.program ∧ t.cfg = s.cfg ∧ t.status = s.status ∧ t.trace = s.trace

/-! ## Common effects -/

/-- rd gets `v` (a pinned x0 goes on reading 0, R21), the pc goes to the next word, and nothing else changes (R100). -/
def WritesRd (rd : Reg) (v : Word) (s t : State) : Prop :=
  t.readReg rd = (if s.cfg.x0Hardwired = true ∧ rd = 0#5 then 0#32 else v) ∧
  RegsSameBut (some rd) s t ∧ t.pc = s.pc + 4#32 ∧ MemSame s t ∧ RunSame s t

/-- The pc goes to `target`, and nothing else changes (R150). -/
def OnlyJumps (target : Word) (s t : State) : Prop :=
  t.pc = target ∧ RegsSameBut none s t ∧ MemSame s t ∧ RunSame s t

/-- The link is written when rd is not 0, the pc goes to `target`, and nothing else changes (R122, R160). -/
def LinksAndJumps (rd : Reg) (target : Word) (s t : State) : Prop :=
  (rd ≠ 0#5 → t.readReg rd = s.pc + 4#32) ∧ RegsSameBut (if rd = 0#5 then none else some rd) s t ∧
  t.pc = target ∧ MemSame s t ∧ RunSame s t

/-- The run stops with a status, and pc, registers, memory, program, configuration and trace are as before (R204). -/
def OnlyStops (st : Status) (s t : State) : Prop :=
  t.status = st ∧ t.pc = s.pc ∧ RegsSameBut none s t ∧ MemSame s t ∧
  t.program = s.program ∧ t.cfg = s.cfg ∧ t.trace = s.trace

/-- `v` is stored to `ea`: the one word the router names holds it, every other word is as before, and each data address reads
accordingly. An unmapped address stores nowhere (R47). -/
def StoresWord (ea : Int) (v : Word) (s t : State) : Prop :=
  (∀ i, t.dataMem.read i = if route s.cfg ea = .data i then v else s.dataMem.read i) ∧
  (∀ i, t.stackMem.read i = if route s.cfg ea = .stack i then v else s.stackMem.read i) ∧
  ∀ a, t.memRead a = if route s.cfg a = route s.cfg ea ∧ route s.cfg ea ≠ .unmapped then v else s.memRead a

/-- Every word other than the sentinel with these bits under this mask decodes to the instruction (a row of
opcode_table.json). -/
def WordsDecodeTo (mask value : Word) (i : Word → Instr) : Prop :=
  ∀ sentinel w : Word, w ≠ sentinel → w &&& mask = value → decode sentinel w = i w

/-- A trace record shows the pc and all 32 registers of a state (R36, R86). -/
def Shows (r : TraceRecord) (s : State) : Prop :=
  r.pc = s.pc ∧ ∀ q : Reg, r.x[q.toNat]'q.isLt = s.readReg q

/-- What a step makes of the result of its instruction: the trace record is added to a next state (R86). -/
def withRecord (r : Result) : Result :=
  match r with
  | .next t => .next t.recordExecuted
  | .fault f => .fault f
  | .refused f => .refused f

/-- A step that fetches `w`: Running, the pc inside the program at word `w`, and no misaligned-fetch fault (R80 to R83). -/
def Fetches (s : State) (w : Word) : Prop :=
  s.status = .running ∧ s.program[s.pc.toNat / 4]? = some w ∧
  (s.pc.toNat % 4 = 0 ∨ s.cfg.misalignedFetchPolicy = .truncate)

/-- A word that neither halts, nor jumps, nor stops the run: R-type, LW, ADDI, SW, BNOP, or INVALID under the Nop policy. -/
def StraightLine (c : Config) (w : Word) : Prop :=
  w ≠ c.haltSentinel ∧
  (w.extractLsb' 0 7 ∈ [0b0110011#7, 0b0000011#7, 0b0010011#7, 0b0100011#7] ∨
    (w.extractLsb' 0 7 = 0b1100011#7 ∧ w.extractLsb' 12 3 ≠ 0b000#3 ∧ w.extractLsb' 12 3 ≠ 0b001#3) ∨
    (w.extractLsb' 0 7 ∉ tableOpcodes ∧ c.invalidOpcodePolicy = .nop))

/-! ## The invariant -/

/-- What holds of every state of a run in a legal configuration. -/
structure State.Inv (s : State) : Prop where
  /-- The configuration keeps the bounds of R6. -/
  cfg_wf : s.cfg.wf = true
  /-- The program keeps its bound (R6, D4). -/
  prog_len : s.program.length ≤ Config.maxProgLen
  /-- Data memory is in canonical form and inside its size (R32). -/
  data_wf : s.dataMem.wf = true
  data_below : s.dataMem.below s.cfg.memSize = true
  /-- Stack memory is in canonical form, inside its size, and nothing where the stack is off (R33). -/
  stack_wf : s.stackMem.wf = true
  stack_below : s.stackMem.below s.cfg.stackSize = true
  stack_off : s.cfg.stackEnabled = false → s.stackMem = []
  /-- The pc is even (R28: targets are multiples of 2). -/
  pc_even : s.pc.getLsbD 0 = false
  /-- A pinned x0 holds 0 (R21). -/
  x0_pinned : s.cfg.x0Hardwired = true → s.x[0] = 0#32
  /-- The last trace record shows the current pc and registers (R86). -/
  trace_current : ∀ r, s.trace.getLast? = some r → r = ⟨s.pc, s.visibleRegs⟩
  /-- A run ends where the pc is outside the program (R81). -/
  ended_outside : s.status = .ended → 4 * s.program.length ≤ s.pc.toNat
  /-- A fetch fault is at a pc that is 2 mod 4, inside the program, under the Fault policy (R82). -/
  faulted_at : s.status = .faultedFetchMisaligned →
    s.pc.toNat < 4 * s.program.length ∧ s.pc.toNat % 4 = 2 ∧ s.cfg.misalignedFetchPolicy = .fault
  /-- A halted run stands at the sentinel (R84). -/
  halted_at : s.status = .halted → s.program[s.pc.toNat / 4]? = some s.cfg.haltSentinel

end Sys2Proof.Machine
end

