-- ==== Sys2Proof/Certificates/Slice0/Obligations.lean ====
section
/-! DEFINITION. The statements for the provers. Each says which rule of the spec it formalises. None is about a program of
ours, and none rests on the configuration of `State.reset`: they hold for every configuration, which a state carries. -/

open Sys2Proof Sys2Proof.Machine

/-! ## The codec -/

/-- R10: the signed reading of a field of any width, and of a 32-bit pattern. -/
def Obligations.SignedReadingOfFields : Prop :=
  (∀ (n : Nat) (f : BitVec (n + 1)),
    toSigned f = if f.getLsbD n = true then (f.toNat : Int) - 2 ^ (n + 1) else (f.toNat : Int)) ∧
  ∀ v : Word, sint v = if v.getLsbD 31 = true then uint v - 2 ^ 32 else uint v

/-- R12 (its laws for patterns are marked as derived in the spec): encoding then reading an integer that fits gives it back,
and reading then encoding a pattern gives it back. -/
def Obligations.CodecRoundTrips : Prop :=
  (∀ v : Int, -2 ^ 31 ≤ v → v < 2 ^ 31 → sint (norm32 v) = v) ∧
  (∀ p : Word, norm32 (sint p) = p ∧ norm32 (uint p) = p) ∧
  ∀ (n : Nat) (v : Int), -2 ^ n ≤ v → v < 2 ^ n → toSigned (toBinary (n + 1) v) = v

/-! ## Encoding -/

/-- R65: the bits and range of the I-immediate, and that LW, ADDI and JALR use it. -/
def Obligations.IImmediateBits : Prop :=
  ∀ w : Word,
    (∀ k, k < 12 → (immI w).getLsbD k = w.getLsbD (20 + k)) ∧
    -2048 ≤ toSigned (immI w) ∧ toSigned (immI w) ≤ 2047 ∧
    ∀ (sentinel : Word) (f : BitVec 3) (rd rs1 : Reg) (imm : BitVec 12),
      decode sentinel w = .lw f rd rs1 imm ∨ decode sentinel w = .addi f rd rs1 imm ∨
        decode sentinel w = .jalr f rd rs1 imm → imm = immI w

/-- R66: the bits and range of the S-immediate, and that SW uses it. -/
def Obligations.SImmediateBits : Prop :=
  ∀ w : Word,
    (∀ k, k < 5 → (immS w).getLsbD k = w.getLsbD (7 + k)) ∧
    (∀ k, k < 7 → (immS w).getLsbD (5 + k) = w.getLsbD (25 + k)) ∧
    -2048 ≤ toSigned (immS w) ∧ toSigned (immS w) ≤ 2047 ∧
    ∀ (sentinel : Word) (f : BitVec 3) (rs1 rs2 : Reg) (imm : BitVec 12),
      decode sentinel w = .sw f rs1 rs2 imm → imm = immS w

/-- R67: the bits, evenness and range of the B-immediate, and that BEQ, BNE and BNOP use it. -/
def Obligations.BImmediateBits : Prop :=
  ∀ w : Word,
    (immB w).getLsbD 12 = w.getLsbD 31 ∧ (immB w).getLsbD 11 = w.getLsbD 7 ∧
    (∀ k, k < 6 → (immB w).getLsbD (5 + k) = w.getLsbD (25 + k)) ∧
    (∀ k, k < 4 → (immB w).getLsbD (1 + k) = w.getLsbD (8 + k)) ∧ (immB w).getLsbD 0 = false ∧
    toSigned (immB w) % 2 = 0 ∧ -4096 ≤ toSigned (immB w) ∧ toSigned (immB w) ≤ 4094 ∧
    ∀ (sentinel : Word) (rs1 rs2 : Reg) (imm : BitVec 13),
      decode sentinel w ∈ ([.beq rs1 rs2 imm, .bne rs1 rs2 imm, .bnop010 rs1 rs2 imm, .bnop011 rs1 rs2 imm,
        .bnop100 rs1 rs2 imm, .bnop101 rs1 rs2 imm, .bnop110 rs1 rs2 imm, .bnop111 rs1 rs2 imm] : List Instr) →
      imm = immB w

/-- R68: the bits, evenness and range of the J-immediate, and that JAL uses it. -/
def Obligations.JImmediateBits : Prop :=
  ∀ w : Word,
    (immJ w).getLsbD 20 = w.getLsbD 31 ∧
    (∀ k, k < 8 → (immJ w).getLsbD (12 + k) = w.getLsbD (12 + k)) ∧ (immJ w).getLsbD 11 = w.getLsbD 20 ∧
    (∀ k, k < 10 → (immJ w).getLsbD (1 + k) = w.getLsbD (21 + k)) ∧ (immJ w).getLsbD 0 = false ∧
    toSigned (immJ w) % 2 = 0 ∧ -1048576 ≤ toSigned (immJ w) ∧ toSigned (immJ w) ≤ 1048574 ∧
    ∀ (sentinel : Word) (rd : Reg) (imm : BitVec 21), decode sentinel w = .jal rd imm → imm = immJ w

/-- R74 (which the spec marks as derived from R63 and R69 to R72): every word is HALT, or INVALID, or an admitted instruction,
which of them is settled by the sentinel and the opcode, and no word makes the core trap: what it decodes to always answers a
next state. -/
def Obligations.EveryWordIsExactlyOneInstruction : Prop :=
  ∀ sentinel w : Word,
    (decode sentinel w = .halt ↔ w = sentinel) ∧
    ((∃ v, decode sentinel w = .invalid v) ↔ w ≠ sentinel ∧ w.extractLsb' 0 7 ∉ tableOpcodes) ∧
    (decode sentinel w).admitted sentinel = true ∧
    ∀ s : State, ∃ t, exec (decode sentinel w) s = .next t

/-- R64: the sentinel is compared first, on all 32 bits; the default is 0x00000063; under another sentinel that word is `beq
x0, x0, 0`. -/
def Obligations.SentinelIsTestedFirst : Prop :=
  (∀ sentinel w : Word, decode sentinel w = .halt ↔ w = sentinel) ∧
  Config.atReset.haltSentinel = 0x00000063#32 ∧
  ∀ sentinel : Word, sentinel ≠ 0x00000063#32 → decode sentinel 0x00000063#32 = .beq 0#5 0#5 0#13

/-- Decoding an encoded instruction gives it back, for every instruction that some word stands for: the well-formed ones whose
word is not the sentinel, and HALT. -/
def Obligations.DecodeOfEncode : Prop :=
  ∀ (sentinel : Word) (i : Instr), i.WellFormed → (i = .halt ∨ encode sentinel i ≠ sentinel) →
    decode sentinel (encode sentinel i) = i

/-- Encoding a decoded word gives it back, for every word: decoding drops no bit. -/
def Obligations.EncodeOfDecode : Prop :=
  ∀ sentinel w : Word, encode sentinel (decode sentinel w) = w

/-- A word of each family, from the spec's own examples, under the default sentinel. -/
def Obligations.ExampleWordsDecode : Prop :=
  decode 0x00000063#32 0x00000063#32 = .halt ∧
  decode 0x00000063#32 0x002081B3#32 = .add 3#5 1#5 2#5 ∧
  decode 0x00000063#32 0x402081B3#32 = .sub 0x20#7 3#5 1#5 2#5 ∧
  decode 0x00000063#32 0x0040A283#32 = .lw 2#3 5#5 1#5 4#12 ∧
  decode 0x00000063#32 0x0050A423#32 = .sw 2#3 1#5 5#5 8#12 ∧
  decode 0x00000063#32 0x00208863#32 = .beq 1#5 2#5 16#13 ∧
  decode 0x00000063#32 0x010000EF#32 = .jal 1#5 16#21 ∧
  decode 0x00000063#32 0x123450B7#32 = .invalid 0x123450B7#32

/-! ## R-type -/

/-- R101: ADD, its words, its result modulo 2^32, and its frame. -/
def Obligations.AddWritesSum : Prop :=
  WordsDecodeTo 0xFE00707F#32 0x00000033#32
    (fun w => .add (w.extractLsb' 7 5) (w.extractLsb' 15 5) (w.extractLsb' 20 5)) ∧
  ∀ (rd rs1 rs2 : Reg) (s : State), ∃ t, exec (.add rd rs1 rs2) s = .next t ∧
    WritesRd rd (s.readReg rs1 + s.readReg rs2) s t

/-- R102: SUB, every word with funct7 other than 0 (the spec's own decision D10), its result modulo 2^32, and its frame. -/
def Obligations.SubWritesDifference : Prop :=
  (∀ sentinel w : Word, w ≠ sentinel → w &&& 0x0000707F#32 = 0x00000033#32 → w.extractLsb' 25 7 ≠ 0#7 →
    decode sentinel w = .sub (w.extractLsb' 25 7) (w.extractLsb' 7 5) (w.extractLsb' 15 5) (w.extractLsb' 20 5)) ∧
  ∀ (f : BitVec 7) (rd rs1 rs2 : Reg) (s : State), ∃ t, exec (.sub f rd rs1 rs2) s = .next t ∧
    WritesRd rd (s.readReg rs1 - s.readReg rs2) s t

/-- R103: SLT, any funct7: 1 if the signed value of rs1 is less than that of rs2, else 0; and its frame. -/
def Obligations.SltWritesSignedComparison : Prop :=
  WordsDecodeTo 0x0000707F#32 0x00002033#32
    (fun w => .slt (w.extractLsb' 25 7) (w.extractLsb' 7 5) (w.extractLsb' 15 5) (w.extractLsb' 20 5)) ∧
  ∀ (f : BitVec 7) (rd rs1 rs2 : Reg) (s : State), ∃ t, exec (.slt f rd rs1 rs2) s = .next t ∧
    WritesRd rd (if (s.readReg rs1).slt (s.readReg rs2) = true then 1#32 else 0#32) s t

/-- R104: SRA, any funct7: the sign-extending shift by the low five bits of rs2; and its frame. -/
def Obligations.SraWritesSignExtendingShift : Prop :=
  WordsDecodeTo 0x0000707F#32 0x00005033#32
    (fun w => .sra (w.extractLsb' 25 7) (w.extractLsb' 7 5) (w.extractLsb' 15 5) (w.extractLsb' 20 5)) ∧
  ∀ (f : BitVec 7) (rd rs1 rs2 : Reg) (s : State), ∃ t, exec (.sra f rd rs1 rs2) s = .next t ∧
    WritesRd rd ((s.readReg rs1).sshiftRight ((s.readReg rs2).toNat % 32)) s t

/-- R105: OR, any funct7, bit by bit on the patterns; and its frame. -/
def Obligations.OrWritesBitwiseOr : Prop :=
  WordsDecodeTo 0x0000707F#32 0x00006033#32
    (fun w => .orReg (w.extractLsb' 25 7) (w.extractLsb' 7 5) (w.extractLsb' 15 5) (w.extractLsb' 20 5)) ∧
  ∀ (f : BitVec 7) (rd rs1 rs2 : Reg) (s : State), ∃ t, exec (.orReg f rd rs1 rs2) s = .next t ∧
    ∃ v : Word, (∀ k, k < 32 → v.getLsbD k = ((s.readReg rs1).getLsbD k || (s.readReg rs2).getLsbD k)) ∧ WritesRd rd v s t

/-- R106: AND, any funct7, bit by bit on the patterns (marked as derived in the spec); and its frame. -/
def Obligations.AndWritesBitwiseAnd : Prop :=
  WordsDecodeTo 0x0000707F#32 0x00007033#32
    (fun w => .andReg (w.extractLsb' 25 7) (w.extractLsb' 7 5) (w.extractLsb' 15 5) (w.extractLsb' 20 5)) ∧
  ∀ (f : BitVec 7) (rd rs1 rs2 : Reg) (s : State), ∃ t, exec (.andReg f rd rs1 rs2) s = .next t ∧
    ∃ v : Word, (∀ k, k < 32 → v.getLsbD k = ((s.readReg rs1).getLsbD k && (s.readReg rs2).getLsbD k)) ∧ WritesRd rd v s t

/-- R107: RZERO, the three funct3 values that select no operation: rd gets 0; and its frame. -/
def Obligations.RzeroWritesZero : Prop :=
  WordsDecodeTo 0x0000707F#32 0x00001033#32
    (fun w => .rzero001 (w.extractLsb' 25 7) (w.extractLsb' 7 5) (w.extractLsb' 15 5) (w.extractLsb' 20 5)) ∧
  WordsDecodeTo 0x0000707F#32 0x00003033#32
    (fun w => .rzero011 (w.extractLsb' 25 7) (w.extractLsb' 7 5) (w.extractLsb' 15 5) (w.extractLsb' 20 5)) ∧
  WordsDecodeTo 0x0000707F#32 0x00004033#32
    (fun w => .rzero100 (w.extractLsb' 25 7) (w.extractLsb' 7 5) (w.extractLsb' 15 5) (w.extractLsb' 20 5)) ∧
  ∀ (f : BitVec 7) (rd rs1 rs2 : Reg) (i : Instr) (s : State),
    i ∈ ([.rzero001 f rd rs1 rs2, .rzero011 f rd rs1 rs2, .rzero100 f rd rs1 rs2] : List Instr) →
    ∃ t, exec i s = .next t ∧ WritesRd rd 0#32 s t

/-! ## I-type -/

/-- R120: LW, any funct3: rd gets the word the router names for the exact address (R41, the spec's own decisions D2, D3), and
0 where it names none; and its frame (every word of memory is as before). -/
def Obligations.LwWritesRoutedWord : Prop :=
  WordsDecodeTo 0x0000007F#32 0x00000003#32
    (fun w => .lw (w.extractLsb' 12 3) (w.extractLsb' 7 5) (w.extractLsb' 15 5) (immI w)) ∧
  ∀ (f : BitVec 3) (rd rs1 : Reg) (imm : BitVec 12) (s : State), ∃ t v, exec (.lw f rd rs1 imm) s = .next t ∧
    WritesRd rd v s t ∧
    (∀ k, route s.cfg ((s.readReg rs1).toInt + imm.toInt) = .stack k → v = s.stackMem.read k) ∧
    (∀ k, route s.cfg ((s.readReg rs1).toInt + imm.toInt) = .data k → v = s.dataMem.read k) ∧
    (route s.cfg ((s.readReg rs1).toInt + imm.toInt) = .unmapped → v = 0#32)

/-- R121: ADDI, any funct3: rs1 plus the sign-extended immediate, modulo 2^32; and its frame. -/
def Obligations.AddiWritesSum : Prop :=
  WordsDecodeTo 0x0000007F#32 0x00000013#32
    (fun w => .addi (w.extractLsb' 12 3) (w.extractLsb' 7 5) (w.extractLsb' 15 5) (immI w)) ∧
  ∀ (f : BitVec 3) (rd rs1 : Reg) (imm : BitVec 12) (s : State), ∃ t, exec (.addi f rd rs1 imm) s = .next t ∧
    WritesRd rd (s.readReg rs1 + imm.signExtend 32) s t

/-- R122: JALR, any funct3, under both settings of `JalrLinkFirst` (the spec's own decision D5): the target is the base plus
the immediate with bit 0 cleared, and the link is written when rd is not x0; and its frame. The base is rs1 as it was before
the step, but for `JalrLinkFirst` with rd = rs1 other than x0, where it is the link value. -/
def Obligations.JalrLinksAndJumpsToRegister : Prop :=
  WordsDecodeTo 0x0000007F#32 0x00000067#32
    (fun w => .jalr (w.extractLsb' 12 3) (w.extractLsb' 7 5) (w.extractLsb' 15 5) (immI w)) ∧
  ∀ (f : BitVec 3) (rd rs1 : Reg) (imm : BitVec 12) (s : State), ∃ t, exec (.jalr f rd rs1 imm) s = .next t ∧
    LinksAndJumps rd
      (((if s.cfg.jalrLinkFirst = true ∧ rd ≠ 0#5 ∧ rd = rs1 then s.pc + 4#32 else s.readReg rs1)
        + imm.signExtend 32) &&& 0xFFFFFFFE#32) s t

/-! ## S-type -/

/-- R140: SW, any funct3: the register's word is stored to the one word the router names for the exact address (R41, the
spec's own decisions D2, D3), or nowhere; no register changes, and the pc falls through. The stores of the state are in
canonical form, as they are in every state of a run (`InvariantIsKept`). -/
def Obligations.SwStoresWord : Prop :=
  WordsDecodeTo 0x0000007F#32 0x00000023#32
    (fun w => .sw (w.extractLsb' 12 3) (w.extractLsb' 15 5) (w.extractLsb' 20 5) (immS w)) ∧
  ∀ (f : BitVec 3) (rs1 rs2 : Reg) (imm : BitVec 12) (s : State), s.dataMem.wf = true → s.stackMem.wf = true →
    ∃ t, exec (.sw f rs1 rs2 imm) s = .next t ∧
      StoresWord (effAddr (s.readReg rs1) imm) (s.readReg rs2) s t ∧
      effAddr (s.readReg rs1) imm = (s.readReg rs1).toInt + imm.toInt ∧
      RegsSameBut none s t ∧ t.pc = s.pc + 4#32 ∧ RunSame s t

/-! ## B-type and J-type -/

/-- R151: BEQ: taken exactly if the two patterns are equal; only the pc changes. -/
def Obligations.BeqBranchesIfEqual : Prop :=
  WordsDecodeTo 0x0000707F#32 0x00000063#32 (fun w => .beq (w.extractLsb' 15 5) (w.extractLsb' 20 5) (immB w)) ∧
  ∀ (rs1 rs2 : Reg) (imm : BitVec 13) (s : State), ∃ t, exec (.beq rs1 rs2 imm) s = .next t ∧
    OnlyJumps (s.pc + if s.readReg rs1 = s.readReg rs2 then imm.signExtend 32 else 4#32) s t

/-- R152: BNE: taken exactly if the two patterns differ; only the pc changes. -/
def Obligations.BneBranchesIfNotEqual : Prop :=
  WordsDecodeTo 0x0000707F#32 0x00001063#32 (fun w => .bne (w.extractLsb' 15 5) (w.extractLsb' 20 5) (immB w)) ∧
  ∀ (rs1 rs2 : Reg) (imm : BitVec 13) (s : State), ∃ t, exec (.bne rs1 rs2 imm) s = .next t ∧
    OnlyJumps (s.pc + if s.readReg rs1 = s.readReg rs2 then 4#32 else imm.signExtend 32) s t

/-- R153: BNOP, the six other funct3 values: never taken; only the pc changes. -/
def Obligations.BnopFallsThrough : Prop :=
  WordsDecodeTo 0x0000707F#32 0x00002063#32 (fun w => .bnop010 (w.extractLsb' 15 5) (w.extractLsb' 20 5) (immB w)) ∧
  WordsDecodeTo 0x0000707F#32 0x00003063#32 (fun w => .bnop011 (w.extractLsb' 15 5) (w.extractLsb' 20 5) (immB w)) ∧
  WordsDecodeTo 0x0000707F#32 0x00004063#32 (fun w => .bnop100 (w.extractLsb' 15 5) (w.extractLsb' 20 5) (immB w)) ∧
  WordsDecodeTo 0x0000707F#32 0x00005063#32 (fun w => .bnop101 (w.extractLsb' 15 5) (w.extractLsb' 20 5) (immB w)) ∧
  WordsDecodeTo 0x0000707F#32 0x00006063#32 (fun w => .bnop110 (w.extractLsb' 15 5) (w.extractLsb' 20 5) (immB w)) ∧
  WordsDecodeTo 0x0000707F#32 0x00007063#32 (fun w => .bnop111 (w.extractLsb' 15 5) (w.extractLsb' 20 5) (immB w)) ∧
  ∀ (rs1 rs2 : Reg) (imm : BitVec 13) (i : Instr) (s : State),
    i ∈ ([.bnop010 rs1 rs2 imm, .bnop011 rs1 rs2 imm, .bnop100 rs1 rs2 imm, .bnop101 rs1 rs2 imm,
      .bnop110 rs1 rs2 imm, .bnop111 rs1 rs2 imm] : List Instr) →
    ∃ t, exec i s = .next t ∧ OnlyJumps (s.pc + 4#32) s t

/-- R160: JAL: the link is written when rd is not x0, and the pc goes to pc plus the immediate; and its frame. -/
def Obligations.JalLinksAndJumps : Prop :=
  WordsDecodeTo 0x0000007F#32 0x0000006F#32 (fun w => .jal (w.extractLsb' 7 5) (immJ w)) ∧
  ∀ (rd : Reg) (imm : BitVec 21) (s : State), ∃ t, exec (.jal rd imm) s = .next t ∧
    LinksAndJumps rd (s.pc + imm.signExtend 32) s t

/-! ## HALT and INVALID -/

/-- R84: HALT stops the run with everything unchanged, and a step that fetches the sentinel appends exactly its own record. -/
def Obligations.HaltStopsAndRecordsItself : Prop :=
  (∀ sentinel : Word, decode sentinel sentinel = .halt) ∧
  (∀ s : State, ∃ t, exec .halt s = .next t ∧ OnlyStops .halted s t) ∧
  ∀ s : State, Fetches s s.cfg.haltSentinel →
    ∃ t r, step s = .next t ∧ t.status = .halted ∧ t.pc = s.pc ∧ RegsSameBut none s t ∧ MemSame s t ∧
      t.program = s.program ∧ t.cfg = s.cfg ∧ t.trace = s.trace ++ [r] ∧ Shows r s

/-- R87: INVALID under the Nop policy (the default, the spec's own decision D11): any word outside the opcode table that is
not the sentinel; only the pc changes, and the step appends a record. -/
def Obligations.InvalidIsNoOpUnderNopPolicy : Prop :=
  (∀ sentinel w : Word, w ≠ sentinel → w.extractLsb' 0 7 ∉ tableOpcodes → decode sentinel w = .invalid w) ∧
  (∀ (w : Word) (s : State), s.cfg.invalidOpcodePolicy = .nop →
    ∃ t, exec (.invalid w) s = .next t ∧ OnlyJumps (s.pc + 4#32) s t) ∧
  ∀ (w : Word) (s : State), Fetches s w → w ≠ s.cfg.haltSentinel → w.extractLsb' 0 7 ∉ tableOpcodes →
    s.cfg.invalidOpcodePolicy = .nop →
    ∃ t r, step s = .next t ∧ t.pc = s.pc + 4#32 ∧ RegsSameBut none s t ∧ MemSame s t ∧ t.status = .running ∧
      t.program = s.program ∧ t.cfg = s.cfg ∧ t.trace = s.trace ++ [r] ∧ Shows r t

/-- R88: INVALID under the DecodeError policy (the spec's own decision D11): the run stops as Refused(DecodeError), nothing
else changes, and no record is appended. -/
def Obligations.InvalidStopsUnderDecodeErrorPolicy : Prop :=
  (∀ sentinel w : Word, w ≠ sentinel → w.extractLsb' 0 7 ∉ tableOpcodes → decode sentinel w = .invalid w) ∧
  (∀ (w : Word) (s : State), s.cfg.invalidOpcodePolicy = .decodeError →
    ∃ t, exec (.invalid w) s = .next t ∧ OnlyStops .refusedDecodeError s t) ∧
  ∀ (w : Word) (s : State), Fetches s w → w ≠ s.cfg.haltSentinel → w.extractLsb' 0 7 ∉ tableOpcodes →
    s.cfg.invalidOpcodePolicy = .decodeError →
    ∃ t, step s = .next t ∧ OnlyStops .refusedDecodeError s t

/-! ## Registers -/

/-- R21: x0 is an ordinary register unless `X0Hardwired` (the alternative setting is the spec's own decision D12), and then
every write to it is discarded and it reads 0. The nine mnemonics that write rd write their result to x0 too; JAL and JALR
with rd = x0 write no register at all. -/
def Obligations.RegisterZeroIsOrdinaryUnlessHardwired : Prop :=
  (∀ (s : State) (v : Word), s.cfg.x0Hardwired = false → (s.writeReg 0#5 v).readReg 0#5 = v) ∧
  (∀ (s : State) (v : Word), s.cfg.x0Hardwired = true → s.writeReg 0#5 v = s ∧ s.readReg 0#5 = 0#32) ∧
  (∀ (s : State) (f7 : BitVec 7) (f3 : BitVec 3) (rs1 rs2 : Reg) (imm : BitVec 12) (i : Instr) (v : Word),
    (i, v) ∈ ([(.add 0#5 rs1 rs2, aluAdd (s.readReg rs1) (s.readReg rs2)),
      (.sub f7 0#5 rs1 rs2, aluSub (s.readReg rs1) (s.readReg rs2)),
      (.slt f7 0#5 rs1 rs2, aluSlt (s.readReg rs1) (s.readReg rs2)),
      (.sra f7 0#5 rs1 rs2, aluSra (s.readReg rs1) (s.readReg rs2)),
      (.orReg f7 0#5 rs1 rs2, aluOr (s.readReg rs1) (s.readReg rs2)),
      (.andReg f7 0#5 rs1 rs2, aluAnd (s.readReg rs1) (s.readReg rs2)),
      (.rzero001 f7 0#5 rs1 rs2, 0#32), (.rzero011 f7 0#5 rs1 rs2, 0#32), (.rzero100 f7 0#5 rs1 rs2, 0#32),
      (.lw f3 0#5 rs1 imm, s.memRead (effAddr (s.readReg rs1) imm)),
      (.addi f3 0#5 rs1 imm, aluAddImm (s.readReg rs1) imm)] : List (Instr × Word)) →
    exec i s = .next ((s.writeReg 0#5 v).setPc (s.pc + 4#32))) ∧
  ∀ (s t : State) (f : BitVec 3) (rs1 : Reg) (imm : BitVec 12) (imm' : BitVec 21),
    exec (.jalr f 0#5 rs1 imm) s = .next t ∨ exec (.jal 0#5 imm') s = .next t → RegsSameBut none s t

/-- R23: the register-file ports of a step. It writes at most the register its rd field names, and no register at all for SW,
BEQ, BNE, BNOP, INVALID and HALT, nor for JAL and JALR with rd = x0; and a register named by neither its rs1 nor its rs2 field
is not read: changing that register beforehand changes nothing else afterwards, and not even that register where the step
writes it (the R-type instructions, LW, ADDI, and JAL and JALR with rd other than x0). -/
def Obligations.RegisterFilePorts : Prop :=
  ∀ (sentinel w : Word) (s t : State), exec (decode sentinel w) s = .next t →
    RegsSameBut (some (w.extractLsb' 7 5)) s t ∧
    (w = sentinel ∨ w.extractLsb' 0 7 = 0b0100011#7 ∨ w.extractLsb' 0 7 = 0b1100011#7 ∨
      w.extractLsb' 0 7 ∉ tableOpcodes → RegsSameBut none s t) ∧
    ((w.extractLsb' 0 7 = 0b1101111#7 ∨ w.extractLsb' 0 7 = 0b1100111#7) ∧ w.extractLsb' 7 5 = 0#5 →
      RegsSameBut none s t) ∧
    ∀ (q : Reg) (v : Word), q ≠ w.extractLsb' 15 5 → q ≠ w.extractLsb' 20 5 →
      ∃ t', exec (decode sentinel w) (s.writeReg q v) = .next t' ∧
        (∀ r : Reg, r ≠ q → t'.readReg r = t.readReg r) ∧
        (w ≠ sentinel ∧ q = w.extractLsb' 7 5 ∧
          (w.extractLsb' 0 7 ∈ [0b0110011#7, 0b0000011#7, 0b0010011#7] ∨
            w.extractLsb' 0 7 ∈ [0b1101111#7, 0b1100111#7] ∧ q ≠ 0#5) → t'.readReg q = t.readReg q) ∧
        t'.pc = t.pc ∧ t'.dataMem = t.dataMem ∧ t'.stackMem = t.stackMem ∧ t'.status = t.status ∧ t'.trace = t.trace

/-! ## Memory -/

/-- R42, R44, R45: the router. The containing word and the absolute alignment test are the spec's own decisions D7, D8. The
stack region is checked first, then the data region; the index is that of the word whose byte addresses include the address;
with the alignment check an address that is not a multiple of 4 is unmapped. -/
def Obligations.RouterAnswersContainingWord : Prop :=
  ∀ (c : Config) (ea : Int),
    (∀ i, route c ea = .stack i ↔ (c.alignCheck = true → ea % 4 = 0) ∧ c.stackEnabled = true ∧ i < c.stackSize ∧
      uint c.stackBase + 4 * i ≤ ea ∧ ea < uint c.stackBase + 4 * i + 4) ∧
    (∀ i, route c ea = .data i ↔ (c.alignCheck = true → ea % 4 = 0) ∧
      ¬(c.stackEnabled = true ∧ uint c.stackBase ≤ ea ∧ ea < uint c.stackBase + 4 * c.stackSize) ∧ i < c.memSize ∧
      uint c.memStart + 4 * i ≤ ea ∧ ea < uint c.memStart + 4 * i + 4) ∧
    (route c ea = .unmapped ↔ (c.alignCheck = true ∧ ea % 4 ≠ 0) ∨
      (¬(c.stackEnabled = true ∧ uint c.stackBase ≤ ea ∧ ea < uint c.stackBase + 4 * c.stackSize) ∧
        ¬(uint c.memStart ≤ ea ∧ ea < uint c.memStart + 4 * c.memSize)))

/-- R43 (which the spec marks as derived from R42 and R223): where the regions overlap, an address goes to the stack; a data
word under the overlap is never reached, no step changes it, and it is 0 after any number of steps from reset, with any
program. -/
def Obligations.OverlapGoesToStack : Prop :=
  ∀ (s : State) (i : Nat), s.cfg.wf = true → s.cfg.stackEnabled = true →
    uint s.cfg.stackBase ≤ uint s.cfg.memStart + 4 * i →
    uint s.cfg.memStart + 4 * i < uint s.cfg.stackBase + 4 * s.cfg.stackSize →
    (∀ ea : Int, uint s.cfg.memStart + 4 * i ≤ ea → ea < uint s.cfg.memStart + 4 * i + 4 →
      (s.cfg.alignCheck = true → ea % 4 = 0) → ∃ j, route s.cfg ea = .stack j) ∧
    (∀ ea : Int, route s.cfg ea ≠ .data i) ∧
    (∀ t, step s = .next t → t.dataMem.read i = s.dataMem.read i) ∧
    ∀ (p : List Word) (n : Nat) (t : State),
      Host.Core.run Sys2Proof.core n (State.resetWith s.cfg p) = .next t → t.dataMem.read i = 0#32

/-- R41: the effective address is the exact integer (the spec's own decisions D2, D3), in its range, and a 32-bit wrapped
address is routed the same way where both regions lie below 2^31 - 2^11. -/
def Obligations.EffectiveAddressIsExact : Prop :=
  ∀ (base : Word) (imm : BitVec 12),
    effAddr base imm = base.toInt + imm.toInt ∧
    -2 ^ 31 - 2 ^ 11 ≤ effAddr base imm ∧ effAddr base imm ≤ 2 ^ 31 + 2 ^ 11 - 2 ∧
    ∀ c : Config, uint c.memStart + 4 * c.memSize ≤ 2 ^ 31 - 2 ^ 11 →
      (c.stackEnabled = true → uint c.stackBase + 4 * c.stackSize ≤ 2 ^ 31 - 2 ^ 11) →
      route c (uint (norm32 (effAddr base imm))) = route c (effAddr base imm)

/-- R51, with R120 and R140 and conflict C7: a load returns the word an earlier store routed to the same place, and is
untouched by a store routed elsewhere. A pinned x0 takes no loaded word and reads 0 (R21). -/
def Obligations.LoadReturnsLatestStore : Prop :=
  ∀ (f f' : BitVec 3) (rs1 rs2 rd rs1' : Reg) (imm imm' : BitVec 12) (s : State),
    s.dataMem.wf = true → s.stackMem.wf = true →
    ∃ t u v, exec (.sw f rs1 rs2 imm) s = .next t ∧ exec (.lw f' rd rs1' imm') t = .next u ∧
      u.readReg rd = (if s.cfg.x0Hardwired = true ∧ rd = 0#5 then 0#32 else v) ∧
      (route s.cfg (effAddr (s.readReg rs1') imm') = route s.cfg (effAddr (s.readReg rs1) imm) →
        route s.cfg (effAddr (s.readReg rs1) imm) ≠ .unmapped → v = s.readReg rs2) ∧
      (route s.cfg (effAddr (s.readReg rs1') imm') ≠ route s.cfg (effAddr (s.readReg rs1) imm) →
        v = s.memRead (effAddr (s.readReg rs1') imm')) ∧
      (route s.cfg (effAddr (s.readReg rs1') imm') = .unmapped → v = 0#32)

/-- R48 (marked as derived in the spec): a store repeated leaves the same state. -/
def Obligations.StoringTwiceIsStoringOnce : Prop :=
  ∀ (s : State) (ea : Int) (v : Word), s.dataMem.wf = true → s.stackMem.wf = true →
    (s.memWrite ea v).memWrite ea v = s.memWrite ea v

/-- Two stores in canonical form that read alike are the same list, so equal memories are equal data (the model's own form,
log entry 4). -/
def Obligations.CanonicalMemoriesAreEqual : Prop :=
  ∀ m m' : Memory, m.wf = true → m'.wf = true → (∀ i, m.read i = m'.read i) → m = m'

/-! ## The step -/

/-- A step runs the instruction its word decodes to, and adds the trace record (R80, R83, R85, R86). -/
def Obligations.StepRunsDecodedInstruction : Prop :=
  ∀ (s : State) (w : Word), Fetches s w → step s = withRecord (exec (decode s.cfg.haltSentinel w) s)

/-- R81 (the unsigned test and its place before the misalignment test are the spec's own decisions D4, D22): a pc outside the
program ends the run, whether or not it is aligned; nothing changes, no record is appended. An empty program ends at its first
step. -/
def Obligations.OutsideProgramEndsRun : Prop :=
  (∀ s : State, s.status = .running → 4 * s.program.length ≤ s.pc.toNat →
    ∃ t, step s = .next t ∧ OnlyStops .ended s t) ∧
  ∀ c : Config, ∃ t, step (State.resetWith c []) = .next t ∧ t.status = .ended ∧ t.trace = []

/-- R82 (the spec's own decision D6): a misaligned pc inside the program. It can only be 2 mod 4. Under the Fault policy the
step stops and nothing else changes; under Truncate the word containing the pc is run, with the pc as it is. -/
def Obligations.MisalignedFetchFollowsPolicy : Prop :=
  ∀ s : State, s.status = .running → s.pc.toNat < 4 * s.program.length → s.pc.toNat % 4 ≠ 0 →
    (s.pc.getLsbD 0 = false → s.pc.toNat % 4 = 2) ∧
    (s.cfg.misalignedFetchPolicy = .fault → ∃ t, step s = .next t ∧ OnlyStops .faultedFetchMisaligned s t) ∧
    (s.cfg.misalignedFetchPolicy = .truncate → ∃ w, s.program[s.pc.toNat / 4]? = some w ∧
      step s = withRecord (exec (decode s.cfg.haltSentinel w) s))

/-- R86: an executed step appends one record, of the pc and registers after it; a step that ends the run by R81, R82 or R88
appends none; and so a run over straight-line words only, to the end of the program, appends one for each of them. -/
def Obligations.ExecutedStepAppendsOneRecord : Prop :=
  (∀ s t : State, step s = .next t →
    (t.status = .running ∨ t.status = .halted → ∃ r, t.trace = s.trace ++ [r] ∧ Shows r t) ∧
    (t.status = .ended ∨ t.status = .faultedFetchMisaligned ∨ t.status = .refusedDecodeError → t.trace = s.trace)) ∧
  ∀ s : State, s.status = .running → s.pc.toNat % 4 = 0 → s.pc.toNat ≤ 4 * s.program.length →
    s.program.length ≤ Config.maxProgLen →
    (∀ (i : Nat) (w : Word), s.pc.toNat / 4 ≤ i → s.program[i]? = some w → StraightLine s.cfg w) →
    ∃ t : State, Host.Core.run Sys2Proof.core (s.program.length - s.pc.toNat / 4 + 1) s = .next t ∧
      t.status = .ended ∧ t.pc.toNat = 4 * s.program.length ∧
      t.trace.length = s.trace.length + (s.program.length - s.pc.toNat / 4)

/-- A Running state always steps to a next state, and no other state does (R74, R80, R200: no word makes the core trap, and a
stopped run takes no step). That a stopped state answers the fault `notRunning` is the model's choice (log entry 5). -/
def Obligations.ExactlyRunningStatesStep : Prop :=
  ∀ s : State, (s.status = .running → ∃ t, step s = .next t) ∧ (s.status ≠ .running → step s = .fault .notRunning)

/-- R204 (marked as derived in the spec): a step that stops the run changes nothing, but for HALT's own trace record, and no
step follows it. -/
def Obligations.StopsArePrecise : Prop :=
  ∀ s t : State, step s = .next t → t.status ≠ .running →
    t.pc = s.pc ∧ RegsSameBut none s t ∧ MemSame s t ∧ t.program = s.program ∧ t.cfg = s.cfg ∧
    (t.status = .halted → ∃ r, t.trace = s.trace ++ [r] ∧ Shows r s) ∧ (t.status ≠ .halted → t.trace = s.trace) ∧
    ∀ u, step t ≠ .next u

/-- R89: a step writes at most one register, the one its rd field names, and at most one memory word: a step of an SW writes
at most the word the router names for its effective address, and a step of any other form leaves both stores as they are. -/
def Obligations.StepMakesAtMostOneUpdate : Prop :=
  ∀ s t : State, step s = .next t →
    RegsSameBut (some (rdOf s.fetchWord)) s t ∧
    (∀ f rs1 rs2 imm, s.fetched = .sw f rs1 rs2 imm →
      (∀ i, route s.cfg (effAddr (s.readReg (rs1Of s.fetchWord)) (immS s.fetchWord)) ≠ .data i →
        t.dataMem.read i = s.dataMem.read i) ∧
      ∀ i, route s.cfg (effAddr (s.readReg (rs1Of s.fetchWord)) (immS s.fetchWord)) ≠ .stack i →
        t.stackMem.read i = s.stackMem.read i) ∧
    ((∀ f rs1 rs2 imm, s.fetched ≠ .sw f rs1 rs2 imm) → t.dataMem = s.dataMem ∧ t.stackMem = s.stackMem)

/-- R54: no step changes the program store, and what is fetched does not depend on data or stack memory. -/
def Obligations.ProgramStoreIsOutOfReach : Prop :=
  (∀ s t : State, step s = .next t → t.program = s.program) ∧
  ∀ (s : State) (m m' : Memory), ((s.setDataMem m).setStackMem m').fetched = s.fetched ∧
    ((s.setDataMem m).setStackMem m').stopBeforeFetch = s.stopBeforeFetch

/-- R27, with its bound on the program length (the spec's own decision D4): a control transfer whose exact target is negative
goes to that target's two's-complement pattern, an address of at least 2^31 - 2^11, which is outside every program within the
bound, so the next step ends the run. -/
def Obligations.NegativeTargetEndsRun : Prop :=
  ∀ (s t : State) (i : Instr) (target : Int), s.status = .running → s.program.length ≤ Config.maxProgLen →
    exec i s = .next t → target < 0 →
    (∃ rd imm, i = .jal rd imm ∧ target = uint s.pc + toSigned imm) ∨
    (∃ rs1 rs2 imm, i = .beq rs1 rs2 imm ∧ s.readReg rs1 = s.readReg rs2 ∧ target = uint s.pc + toSigned imm) ∨
    (∃ rs1 rs2 imm, i = .bne rs1 rs2 imm ∧ s.readReg rs1 ≠ s.readReg rs2 ∧ target = uint s.pc + toSigned imm) ∨
    (∃ f rd rs1 imm n, i = .jalr f rd rs1 imm ∧
      n = sint (if s.cfg.jalrLinkFirst = true ∧ rd ≠ 0#5 ∧ rd = rs1 then s.pc + 4#32 else s.readReg rs1)
        + toSigned imm ∧ target = n - n % 2) →
    (t.pc.toNat : Int) = 2 ^ 32 + target ∧ 2 ^ 31 - 2 ^ 11 ≤ t.pc.toNat ∧ ∃ u, step t = .next u ∧ OnlyStops .ended t u

/-- R235: infinite runs are admitted. A JAL to itself goes on for any number of steps, each appending a record. -/
def Obligations.SelfJumpRunsForever : Prop :=
  ∀ (s : State) (w : Word) (rd : Reg), Fetches s w → decode s.cfg.haltSentinel w = .jal rd 0#21 →
    ∀ n, ∃ t : State, Host.Core.run Sys2Proof.core n s = .next t ∧ t.status = .running ∧ t.pc = s.pc ∧
      t.trace.length = s.trace.length + n

/-! ## Invariant and reset -/

/-- Every step keeps the invariant, from every state that has it, reached or not. -/
def Obligations.InvariantIsKept : Prop :=
  ∀ s t : State, s.Inv → step s = .next t → t.Inv

/-- The invariant holds at reset, for every legal configuration and program, at the model's own reset, and after a boot. -/
def Obligations.InvariantHoldsAtReset : Prop :=
  (∀ (c : Config) (p : List Word), c.wf = true → p.length ≤ Config.maxProgLen → (State.resetWith c p).Inv) ∧
  State.reset.Inv ∧
  ∀ (c : Config) (lines : List (List Char)), c.wf = true → lines.length ≤ Config.maxProgLen → (boot c lines).Inv

/-- R221, R222, R223: the values after reset, for every configuration and program. -/
def Obligations.ResetValues : Prop :=
  ∀ (c : Config) (p : List Word),
    (∀ r : Reg, (State.resetWith c p).readReg r = if r = 2#5 then c.spInit else 0#32) ∧
    (State.resetWith c p).pc = 0x00000000#32 ∧ (State.resetWith c p).status = .running ∧
    (State.resetWith c p).trace = [] ∧ (State.resetWith c p).program = p ∧
    ∀ i, (State.resetWith c p).dataMem.read i = 0#32 ∧ (State.resetWith c p).stackMem.read i = 0#32

/-! ## The block interface -/

/-- R37: a step described by the ports (the spec's own decision D1) is the step. What a data port carries while its enable is
0 is the model's choice (log entry 9); no update takes it. -/
def Obligations.DatapathRefinesStep : Prop :=
  ∀ s : State, datapathStep s = step s

/-- The enables of each instruction's ports, as R38 lists them. -/
def Sys2Proof.Machine.PortsAsListed (c : Config) (i : Instr) (o : PortsOut) : Prop :=
  match i with
  | .add _ _ _ | .sub _ _ _ _ | .slt _ _ _ _ | .sra _ _ _ _ | .orReg _ _ _ _ | .andReg _ _ _ _
  | .rzero001 _ _ _ _ | .rzero011 _ _ _ _ | .rzero100 _ _ _ _ | .addi _ _ _ _ =>
    o.rdWe = true ∧ o.memRe = false ∧ o.memWe = false
  | .lw _ _ _ _ => o.rdWe = true ∧ o.memRe = true ∧ o.memWe = false
  | .sw _ _ _ _ => o.rdWe = false ∧ o.memRe = false ∧ o.memWe = true
  | .jal rd _ | .jalr _ rd _ _ => (o.rdWe = true ↔ rd ≠ 0#5) ∧ o.memRe = false ∧ o.memWe = false
  | .beq _ _ _ | .bne _ _ _ | .bnop010 _ _ _ | .bnop011 _ _ _ | .bnop100 _ _ _ | .bnop101 _ _ _ | .bnop110 _ _ _
  | .bnop111 _ _ _ => o.rdWe = false ∧ o.memRe = false ∧ o.memWe = false
  | .invalid _ => o.rdWe = false ∧ o.memRe = false ∧ o.memWe = false ∧
      (o.decodeError = true ↔ c.invalidOpcodePolicy = .decodeError)
  | .halt => o.halt = true ∧ o.rdWe = false ∧ o.memWe = false

/-- R38 (marked as derived in the spec): the ports of every instruction, and that halt is raised by HALT alone. That an enable
R38 does not list for an instruction is 0 is deduced (log entry 14). -/
def Obligations.PortsFollowInstruction : Prop :=
  ∀ (c : Config) (p : PortsIn),
    PortsAsListed c (decode c.haltSentinel p.instr) (datapath c p) ∧
    ((datapath c p).halt = true ↔ p.instr = c.haltSentinel) ∧
    (datapath c p).rs1Idx = p.instr.extractLsb' 15 5 ∧ (datapath c p).rs2Idx = p.instr.extractLsb' 20 5 ∧
    (datapath c p).rdIdx = p.instr.extractLsb' 7 5 ∧ (datapath c p).memWdata = p.rs2Data

/-! ## Loading and output -/

/-- R224, on lines trimmed as R226 says (the spec's own decision D16): a line is a word exactly if, trimmed, it is that word's
32 binary digits with bit 31 first; the program is the words of the lines in order, the empty lines left out; every program
can be loaded; and a run of loaded lines starts at reset with that program in its store. -/
def Obligations.LinesLoadInOrder : Prop :=
  (∀ (l : List Char) (w : Word), parseLine l = .word w ↔
    (trimLine l).length = 32 ∧
    ∀ k, k < 32 → (trimLine l)[k]? = some (if w.getLsbD (31 - k) = true then '1' else '0')) ∧
  (∀ (ls : List (List Char)) (p : List Word), loadLines ls = some p →
    (ls.map parseLine).filter (fun r => decide (r ≠ .skipped)) = p.map .word) ∧
  (∀ p : List Word, loadLines (p.map bitChars) = some p) ∧
  ∀ (c : Config) (ls : List (List Char)) (p : List Word), loadLines ls = some p → boot c ls = State.resetWith c p

/-- R225 (the spec's own decision D16): a line that, trimmed, is not empty and not 32 binary digits is malformed, and one such
line refuses the whole run: no step, no record, no output. -/
def Obligations.MalformedLineRefusesRun : Prop :=
  (∀ l : List Char, parseLine l = .malformed ↔
    trimLine l ≠ [] ∧ ¬((trimLine l).length = 32 ∧ ∀ ch ∈ trimLine l, ch = '0' ∨ ch = '1')) ∧
  ∀ (c : Config) (ls : List (List Char)), (∃ l ∈ ls, parseLine l = .malformed) →
    (boot c ls).status = .refusedDecodeError ∧ (boot c ls).trace = [] ∧ (∀ t, step (boot c ls) ≠ .next t) ∧
    output (boot c ls) = none

/-- R226 (the spec's own decision D16): a line is its trimmed part between two runs of white space, and it is skipped exactly
if it is white space only. Which characters are white space is the model's choice (log entry 7). -/
def Obligations.LinesAreTrimmed : Prop :=
  ∀ l : List Char,
    (∃ pre post, l = pre ++ trimLine l ++ post ∧ (∀ ch ∈ pre, isLineSpace ch = true) ∧
      ∀ ch ∈ post, isLineSpace ch = true) ∧
    (∀ ch, (trimLine l).head? = some ch ∨ (trimLine l).getLast? = some ch → isLineSpace ch = false) ∧
    (parseLine l = .skipped ↔ ∀ ch ∈ l, isLineSpace ch = true)

/-- R230 (separators and line feed are the spec's own decision D17): a trace line is its 33 fields with one space between them
and a line feed after them, each field `0b` and 32 binary digits, most significant first. -/
def Obligations.TraceLineHas33Fields : Prop :=
  ∀ r : TraceRecord, ∃ fields : List (List Char),
    fields.length = 33 ∧ traceLine r = List.intercalate [' '] fields ++ ['\n'] ∧
    ∀ j (hj : j < 33), ∃ digits, fields[j]? = some ('0' :: 'b' :: digits) ∧ digits.length = 32 ∧
      ∀ k, k < 32 → digits[k]? = some
        (if (if h : j = 0 then r.pc else r.x[j - 1]'(by omega)).getLsbD (31 - k) = true then '1' else '0')

/-- R231 (its exact rendering is the spec's own decision D17): the dump has one line for each data word in ascending order:
`0x`, the address `MemStart + 4*i` as 8 uppercase hexadecimal digits, `:0b`, the word as 32 binary digits, and a line feed.
The stack does not show. -/
def Obligations.DumpListsDataWords : Prop :=
  ∀ s : State, s.cfg.wf = true →
    (memoryDump s).length = s.cfg.memSize ∧
    (∀ i, i < s.cfg.memSize → ∃ hex digits : List Nat,
      (memoryDump s)[i]? = some (['0', 'x'] ++
        hex.map (fun d => ['0', '1', '2', '3', '4', '5', '6', '7', '8', '9', 'A', 'B', 'C', 'D', 'E', 'F'].getD d ' ') ++ [':', '0', 'b'] ++
        digits.map (fun d => if d = 1 then '1' else '0') ++ ['\n']) ∧
      hex.length = 8 ∧ (∀ d ∈ hex, d < 16) ∧ hex.foldl (fun n d => 16 * n + d) 0 = s.cfg.memStart.toNat + 4 * i ∧
      digits.length = 32 ∧ (∀ d ∈ digits, d < 2) ∧
      digits.foldl (fun n d => 2 * n + d) 0 = (s.dataMem.read i).toNat) ∧
    ∀ m, memoryDump (s.setStackMem m) = memoryDump s

/-- R229, R232 (no dump after an abnormal stop is the spec's own decision D18): the output of a normal end is one line for
each record in order and then the dump; a Faulted or Refused run outputs no dump. That the model then outputs nothing at all
is the model's choice (log entry 10). -/
def Obligations.OutputFollowsNormalEnd : Prop :=
  ∀ s : State,
    (s.status = .halted ∨ s.status = .ended → ∃ out : List (List Char), output s = some out ∧
      out.length = s.trace.length + s.cfg.memSize ∧
      (∀ (k : Nat) (r : TraceRecord), s.trace[k]? = some r → out[k]? = some (traceLine r)) ∧
      ∀ i, i < s.cfg.memSize → out[s.trace.length + i]? = (memoryDump s)[i]?) ∧
    (s.status = .faultedFetchMisaligned ∨ s.status = .refusedDecodeError → output s = none)

/-- R90 (the spec's own decision D19 leaves the limit open): without `MaxSteps` the host's loop is the core's step; with it, a
Running run that has executed that many steps goes no further, and its status stays Running, which is no normal end. When
exactly the host stops is the model's choice (log entry 8). -/
def Obligations.StepLimitIsTheHosts : Prop :=
  ∀ s : State,
    (s.cfg.maxSteps = none → hostStep s = step s) ∧
    (∀ n, s.cfg.maxSteps = some n → s.trace.length < n → hostStep s = step s) ∧
    ∀ n, s.cfg.maxSteps = some n → s.status = .running → n ≤ s.trace.length →
      (∀ t, hostStep s ≠ .next t) ∧ s.normalEnd = false ∧ ∃ t, step s = .next t
end

