-- ==== Sys2Proof/Laws/Decode.lean ====
section
/-! SUPPORT. The bits of an encoded word, its fields and immediates read back, and a word put together again from its fields
(30_encoding.md R61, R62, R65 to R68). -/

namespace Sys2Proof

/-! ## The R layout, which every format is an instance of -/

section packR
variable (f7 : BitVec 7) (r2 r1 : Reg) (f3 : BitVec 3) (d : Reg) (op : BitVec 7)

theorem getLsbD_packR (i : Nat) : (packR f7 r2 r1 f3 d op).getLsbD i =
    if i < 7 then op.getLsbD i else if i < 12 then d.getLsbD (i - 7) else if i < 15 then f3.getLsbD (i - 12)
    else if i < 20 then r1.getLsbD (i - 15) else if i < 25 then r2.getLsbD (i - 20) else f7.getLsbD (i - 25) := by
  unfold packR
  erw [BitVec.getLsbD_append, BitVec.getLsbD_append, BitVec.getLsbD_append, BitVec.getLsbD_append,
    BitVec.getLsbD_append]
  split_ifs <;> first | rfl | omega

/-- A field of `n` bits at bit `k` reads the bits put there. -/
theorem extract_packR {n : Nat} (k : Nat) (f : BitVec n)
    (h : ∀ i, i < n → (packR f7 r2 r1 f3 d op).getLsbD (k + i) = f.getLsbD i) :
    (packR f7 r2 r1 f3 d op).extractLsb' k n = f := by
  apply BitVec.eq_of_getLsbD_eq
  intro i hi
  rw [BitVec.getLsbD_extractLsb', h i hi, decide_eq_true hi, Bool.true_and]

@[simp] theorem opcodeOf_packR : opcodeOf (packR f7 r2 r1 f3 d op) = op :=
  extract_packR _ _ _ _ _ _ 0 op fun i hi => by rw [getLsbD_packR, Nat.zero_add, if_pos hi]

@[simp] theorem rdOf_packR : rdOf (packR f7 r2 r1 f3 d op) = d :=
  extract_packR _ _ _ _ _ _ 7 d fun i hi => by
    rw [getLsbD_packR, if_neg (by omega), if_pos (by omega), Nat.add_sub_cancel_left]

@[simp] theorem funct3Of_packR : funct3Of (packR f7 r2 r1 f3 d op) = f3 :=
  extract_packR _ _ _ _ _ _ 12 f3 fun i hi => by
    rw [getLsbD_packR, if_neg (by omega), if_neg (by omega), if_pos (by omega), Nat.add_sub_cancel_left]

@[simp] theorem rs1Of_packR : rs1Of (packR f7 r2 r1 f3 d op) = r1 :=
  extract_packR _ _ _ _ _ _ 15 r1 fun i hi => by
    rw [getLsbD_packR, if_neg (by omega), if_neg (by omega), if_neg (by omega), if_pos (by omega),
      Nat.add_sub_cancel_left]

@[simp] theorem rs2Of_packR : rs2Of (packR f7 r2 r1 f3 d op) = r2 :=
  extract_packR _ _ _ _ _ _ 20 r2 fun i hi => by
    rw [getLsbD_packR, if_neg (by omega), if_neg (by omega), if_neg (by omega), if_neg (by omega), if_pos (by omega),
      Nat.add_sub_cancel_left]

@[simp] theorem funct7Of_packR : funct7Of (packR f7 r2 r1 f3 d op) = f7 :=
  extract_packR _ _ _ _ _ _ 25 f7 fun i hi => by
    rw [getLsbD_packR, if_neg (by omega), if_neg (by omega), if_neg (by omega), if_neg (by omega), if_neg (by omega),
      Nat.add_sub_cancel_left]

end packR

/-- A word is its six fields. -/
theorem packR_fields (w : Word) : packR (funct7Of w) (rs2Of w) (rs1Of w) (funct3Of w) (rdOf w) (opcodeOf w) = w := by
  apply BitVec.eq_of_getLsbD_eq
  intro i hi
  rw [getLsbD_packR]
  simp only [funct7Of, rs2Of, rs1Of, funct3Of, rdOf, opcodeOf, BitVec.getLsbD_extractLsb']
  split_ifs <;> (rw [decide_eq_true (by omega), Bool.true_and]; congr 1; omega)

/-! ## The other formats as instances of the R layout -/

/-- A 12-bit immediate is its high seven bits and its low five. -/
theorem imm12_split (imm : BitVec 12) : imm.extractLsb' 5 7 ++ imm.extractLsb' 0 5 = imm := by
  apply BitVec.eq_of_getLsbD_eq
  intro i hi
  erw [BitVec.getLsbD_append]
  interval_cases i <;> simp

theorem packI_eq (imm : BitVec 12) (r1 : Reg) (f3 : BitVec 3) (d : Reg) (op : BitVec 7) :
    packI imm r1 f3 d op = packR (imm.extractLsb' 5 7) (imm.extractLsb' 0 5) r1 f3 d op := by
  unfold packI packR
  conv_lhs => rw [← imm12_split imm]
  exact BitVec.append_assoc

theorem getLsbD_packJ (imm : BitVec 21) (d : Reg) (op : BitVec 7) (i : Nat) : (packJ imm d op).getLsbD i =
    if i < 7 then op.getLsbD i else if i < 12 then d.getLsbD (i - 7)
    else if i < 20 then (imm.extractLsb' 12 8).getLsbD (i - 12) else if i < 21 then (imm.extractLsb' 11 1).getLsbD (i - 20)
    else if i < 31 then (imm.extractLsb' 1 10).getLsbD (i - 21) else (imm.extractLsb' 20 1).getLsbD (i - 31) := by
  unfold packJ
  erw [BitVec.getLsbD_append, BitVec.getLsbD_append, BitVec.getLsbD_append, BitVec.getLsbD_append,
    BitVec.getLsbD_append]
  split_ifs <;> first | rfl | omega

theorem packJ_eq (imm : BitVec 21) (d : Reg) (op : BitVec 7) :
    packJ imm d op = packR (imm.extractLsb' 20 1 ++ imm.extractLsb' 5 6) (imm.extractLsb' 1 4 ++ imm.extractLsb' 11 1)
      (imm.extractLsb' 15 5) (imm.extractLsb' 12 3) d op := by
  apply BitVec.eq_of_getLsbD_eq
  intro i hi
  rw [getLsbD_packJ, getLsbD_packR]
  erw [BitVec.getLsbD_append, BitVec.getLsbD_append]
  interval_cases i <;> simp

/-! ## Immediates: their bits, and read back from an encoded word -/

/-- The bits of the B-immediate (R67). -/
theorem getLsbD_immB (w : Word) (i : Nat) : (immB w).getLsbD i =
    if i < 1 then false else if i < 5 then w.getLsbD (i + 7) else if i < 11 then w.getLsbD (i + 20)
    else if i < 12 then w.getLsbD 7 else if i < 13 then w.getLsbD 31 else false := by
  unfold immB
  erw [BitVec.getLsbD_append, BitVec.getLsbD_append, BitVec.getLsbD_append, BitVec.getLsbD_append]
  rcases Nat.lt_or_ge i 13 with h | h
  · interval_cases i <;> simp
  · have h1 : ¬i < 1 := by omega
    have h5 : ¬i < 5 := by omega
    have h11 : ¬i < 11 := by omega
    have h12 : ¬i < 12 := by omega
    have h13 : ¬i < 13 := by omega
    simp [h1, h5, h11, h12, h13]
    omega

/-- The bits of the J-immediate (R68). -/
theorem getLsbD_immJ (w : Word) (i : Nat) : (immJ w).getLsbD i =
    if i < 1 then false else if i < 11 then w.getLsbD (i + 20) else if i < 12 then w.getLsbD 20
    else if i < 20 then w.getLsbD i else if i < 21 then w.getLsbD 31 else false := by
  unfold immJ
  erw [BitVec.getLsbD_append, BitVec.getLsbD_append, BitVec.getLsbD_append, BitVec.getLsbD_append]
  rcases Nat.lt_or_ge i 21 with h | h
  · interval_cases i <;> simp
  · have h1 : ¬i < 1 := by omega
    have h11 : ¬i < 11 := by omega
    have h12 : ¬i < 12 := by omega
    have h20 : ¬i < 20 := by omega
    have h21 : ¬i < 21 := by omega
    simp [h1, h11, h12, h20, h21]
    omega

@[simp] theorem immI_packI (imm : BitVec 12) (r1 : Reg) (f3 : BitVec 3) (d : Reg) (op : BitVec 7) :
    immI (packI imm r1 f3 d op) = imm := by
  apply BitVec.eq_of_getLsbD_eq
  intro i hi
  rw [packI_eq, immI, BitVec.getLsbD_extractLsb', getLsbD_packR]
  interval_cases i <;> simp

@[simp] theorem immS_packS (imm : BitVec 12) (r2 r1 : Reg) (f3 : BitVec 3) (op : BitVec 7) :
    immS (packS imm r2 r1 f3 op) = imm := by
  have h7 : (packS imm r2 r1 f3 op).extractLsb' 25 7 = imm.extractLsb' 5 7 := funct7Of_packR _ _ _ _ _ _
  have h5 : (packS imm r2 r1 f3 op).extractLsb' 7 5 = imm.extractLsb' 0 5 := rdOf_packR _ _ _ _ _ _
  rw [immS, h7, h5, imm12_split]

/-- The bits of the two fields that hold a B-immediate. -/
theorem getLsbD_highB (imm : BitVec 13) (i : Nat) :
    BitVec.getLsbD (w := 7) (imm.extractLsb' 12 1 ++ imm.extractLsb' 5 6) i =
    if i < 6 then (imm.extractLsb' 5 6).getLsbD i else (imm.extractLsb' 12 1).getLsbD (i - 6) := BitVec.getLsbD_append

theorem getLsbD_lowB (imm : BitVec 13) (i : Nat) :
    BitVec.getLsbD (w := 5) (imm.extractLsb' 1 4 ++ imm.extractLsb' 11 1) i =
    if i < 1 then (imm.extractLsb' 11 1).getLsbD i else (imm.extractLsb' 1 4).getLsbD (i - 1) := BitVec.getLsbD_append

theorem immB_packB (imm : BitVec 13) (h : imm.getLsbD 0 = false) (r2 r1 : Reg) (f3 : BitVec 3) (op : BitVec 7) :
    immB (packB imm r2 r1 f3 op) = imm := by
  apply BitVec.eq_of_getLsbD_eq
  intro i hi
  rw [getLsbD_immB, packB]
  simp only [getLsbD_packR, getLsbD_highB, getLsbD_lowB]
  interval_cases i <;> simp_all

theorem immJ_packJ (imm : BitVec 21) (h : imm.getLsbD 0 = false) (d : Reg) (op : BitVec 7) :
    immJ (packJ imm d op) = imm := by
  apply BitVec.eq_of_getLsbD_eq
  intro i hi
  rw [getLsbD_immJ]
  simp only [getLsbD_packJ]
  interval_cases i <;> simp_all

/-! ## A word put together again, format by format -/

theorem packI_fields (w : Word) : packI (immI w) (rs1Of w) (funct3Of w) (rdOf w) (opcodeOf w) = w := by
  have h7 : (immI w).extractLsb' 5 7 = funct7Of w := by
    apply BitVec.eq_of_getLsbD_eq; intro i hi; interval_cases i <;> simp [immI, funct7Of]
  have h5 : (immI w).extractLsb' 0 5 = rs2Of w := by
    apply BitVec.eq_of_getLsbD_eq; intro i hi; interval_cases i <;> simp [immI, rs2Of]
  rw [packI_eq, h7, h5, packR_fields]

theorem packS_fields (w : Word) : packS (immS w) (rs2Of w) (rs1Of w) (funct3Of w) (opcodeOf w) = w := by
  have h7 : (immS w).extractLsb' 5 7 = funct7Of w := by
    apply BitVec.eq_of_getLsbD_eq; intro i hi
    rw [BitVec.getLsbD_extractLsb', immS]; erw [BitVec.getLsbD_append]
    interval_cases i <;> simp [funct7Of]
  have h5 : (immS w).extractLsb' 0 5 = rdOf w := by
    apply BitVec.eq_of_getLsbD_eq; intro i hi
    rw [BitVec.getLsbD_extractLsb', immS]; erw [BitVec.getLsbD_append]
    interval_cases i <;> simp [rdOf]
  rw [packS, h7, h5, packR_fields]

theorem packB_fields (w : Word) : packB (immB w) (rs2Of w) (rs1Of w) (funct3Of w) (opcodeOf w) = w := by
  have h7 : (immB w).extractLsb' 12 1 ++ (immB w).extractLsb' 5 6 = funct7Of w := by
    apply BitVec.eq_of_getLsbD_eq; intro i hi
    erw [BitVec.getLsbD_append]
    simp only [BitVec.getLsbD_extractLsb', getLsbD_immB, funct7Of]
    interval_cases i <;> simp
  have h5 : (immB w).extractLsb' 1 4 ++ (immB w).extractLsb' 11 1 = rdOf w := by
    apply BitVec.eq_of_getLsbD_eq; intro i hi
    erw [BitVec.getLsbD_append]
    simp only [BitVec.getLsbD_extractLsb', getLsbD_immB, rdOf]
    interval_cases i <;> simp
  rw [packB, h7, h5, packR_fields]

theorem packJ_fields (w : Word) : packJ (immJ w) (rdOf w) (opcodeOf w) = w := by
  apply BitVec.eq_of_getLsbD_eq
  intro i hi
  rw [getLsbD_packJ]
  simp only [BitVec.getLsbD_extractLsb', getLsbD_immJ, rdOf, opcodeOf]
  interval_cases i <;> simp

/-! ## The fields of the other formats -/

section fields
variable (r2 r1 : Reg) (f3 : BitVec 3) (d : Reg) (op : BitVec 7)

@[simp] theorem opcodeOf_packI (imm : BitVec 12) : opcodeOf (packI imm r1 f3 d op) = op := by rw [packI_eq, opcodeOf_packR]
@[simp] theorem rdOf_packI (imm : BitVec 12) : rdOf (packI imm r1 f3 d op) = d := by rw [packI_eq, rdOf_packR]
@[simp] theorem funct3Of_packI (imm : BitVec 12) : funct3Of (packI imm r1 f3 d op) = f3 := by rw [packI_eq, funct3Of_packR]
@[simp] theorem rs1Of_packI (imm : BitVec 12) : rs1Of (packI imm r1 f3 d op) = r1 := by rw [packI_eq, rs1Of_packR]

@[simp] theorem opcodeOf_packS (imm : BitVec 12) : opcodeOf (packS imm r2 r1 f3 op) = op := opcodeOf_packR _ _ _ _ _ _
@[simp] theorem funct3Of_packS (imm : BitVec 12) : funct3Of (packS imm r2 r1 f3 op) = f3 := funct3Of_packR _ _ _ _ _ _
@[simp] theorem rs1Of_packS (imm : BitVec 12) : rs1Of (packS imm r2 r1 f3 op) = r1 := rs1Of_packR _ _ _ _ _ _
@[simp] theorem rs2Of_packS (imm : BitVec 12) : rs2Of (packS imm r2 r1 f3 op) = r2 := rs2Of_packR _ _ _ _ _ _

@[simp] theorem opcodeOf_packB (imm : BitVec 13) : opcodeOf (packB imm r2 r1 f3 op) = op := opcodeOf_packR _ _ _ _ _ _
@[simp] theorem funct3Of_packB (imm : BitVec 13) : funct3Of (packB imm r2 r1 f3 op) = f3 := funct3Of_packR _ _ _ _ _ _
@[simp] theorem rs1Of_packB (imm : BitVec 13) : rs1Of (packB imm r2 r1 f3 op) = r1 := rs1Of_packR _ _ _ _ _ _
@[simp] theorem rs2Of_packB (imm : BitVec 13) : rs2Of (packB imm r2 r1 f3 op) = r2 := rs2Of_packR _ _ _ _ _ _

@[simp] theorem opcodeOf_packJ (imm : BitVec 21) : opcodeOf (packJ imm d op) = op := by rw [packJ_eq, opcodeOf_packR]
@[simp] theorem rdOf_packJ (imm : BitVec 21) : rdOf (packJ imm d op) = d := by rw [packJ_eq, rdOf_packR]

end fields

/-- Decoded B and J immediates are even (R67, R68). -/
@[simp] theorem immB_even (w : Word) : (immB w).getLsbD 0 = false := by rw [getLsbD_immB]; rfl
@[simp] theorem immJ_even (w : Word) : (immJ w).getLsbD 0 = false := by rw [getLsbD_immJ]; rfl

end Sys2Proof
end

