-- ==== Sys2Proof/Laws/State.lean ====
section
/-! SUPPORT. One lemma per field per single-field update of State, each true by rfl, so that no later proof unfolds a record
update. And the reset state, field by field. -/

namespace Sys2Proof.Machine.State

section setX
variable (s : State) (v : Vector Word 32)
@[simp] theorem setX_x : (s.setX v).x = v := rfl
@[simp] theorem setX_pc : (s.setX v).pc = s.pc := rfl
@[simp] theorem setX_dataMem : (s.setX v).dataMem = s.dataMem := rfl
@[simp] theorem setX_stackMem : (s.setX v).stackMem = s.stackMem := rfl
@[simp] theorem setX_program : (s.setX v).program = s.program := rfl
@[simp] theorem setX_status : (s.setX v).status = s.status := rfl
@[simp] theorem setX_trace : (s.setX v).trace = s.trace := rfl
@[simp] theorem setX_cfg : (s.setX v).cfg = s.cfg := rfl
end setX

section setPc
variable (s : State) (v : Word)
@[simp] theorem setPc_x : (s.setPc v).x = s.x := rfl
@[simp] theorem setPc_pc : (s.setPc v).pc = v := rfl
@[simp] theorem setPc_dataMem : (s.setPc v).dataMem = s.dataMem := rfl
@[simp] theorem setPc_stackMem : (s.setPc v).stackMem = s.stackMem := rfl
@[simp] theorem setPc_program : (s.setPc v).program = s.program := rfl
@[simp] theorem setPc_status : (s.setPc v).status = s.status := rfl
@[simp] theorem setPc_trace : (s.setPc v).trace = s.trace := rfl
@[simp] theorem setPc_cfg : (s.setPc v).cfg = s.cfg := rfl
end setPc

section setDataMem
variable (s : State) (v : Memory)
@[simp] theorem setDataMem_x : (s.setDataMem v).x = s.x := rfl
@[simp] theorem setDataMem_pc : (s.setDataMem v).pc = s.pc := rfl
@[simp] theorem setDataMem_dataMem : (s.setDataMem v).dataMem = v := rfl
@[simp] theorem setDataMem_stackMem : (s.setDataMem v).stackMem = s.stackMem := rfl
@[simp] theorem setDataMem_program : (s.setDataMem v).program = s.program := rfl
@[simp] theorem setDataMem_status : (s.setDataMem v).status = s.status := rfl
@[simp] theorem setDataMem_trace : (s.setDataMem v).trace = s.trace := rfl
@[simp] theorem setDataMem_cfg : (s.setDataMem v).cfg = s.cfg := rfl
end setDataMem

section setStackMem
variable (s : State) (v : Memory)
@[simp] theorem setStackMem_x : (s.setStackMem v).x = s.x := rfl
@[simp] theorem setStackMem_pc : (s.setStackMem v).pc = s.pc := rfl
@[simp] theorem setStackMem_dataMem : (s.setStackMem v).dataMem = s.dataMem := rfl
@[simp] theorem setStackMem_stackMem : (s.setStackMem v).stackMem = v := rfl
@[simp] theorem setStackMem_program : (s.setStackMem v).program = s.program := rfl
@[simp] theorem setStackMem_status : (s.setStackMem v).status = s.status := rfl
@[simp] theorem setStackMem_trace : (s.setStackMem v).trace = s.trace := rfl
@[simp] theorem setStackMem_cfg : (s.setStackMem v).cfg = s.cfg := rfl
end setStackMem

section setProgram
variable (s : State) (v : List Word)
@[simp] theorem setProgram_x : (s.setProgram v).x = s.x := rfl
@[simp] theorem setProgram_pc : (s.setProgram v).pc = s.pc := rfl
@[simp] theorem setProgram_dataMem : (s.setProgram v).dataMem = s.dataMem := rfl
@[simp] theorem setProgram_stackMem : (s.setProgram v).stackMem = s.stackMem := rfl
@[simp] theorem setProgram_program : (s.setProgram v).program = v := rfl
@[simp] theorem setProgram_status : (s.setProgram v).status = s.status := rfl
@[simp] theorem setProgram_trace : (s.setProgram v).trace = s.trace := rfl
@[simp] theorem setProgram_cfg : (s.setProgram v).cfg = s.cfg := rfl
end setProgram

section setStatus
variable (s : State) (v : Status)
@[simp] theorem setStatus_x : (s.setStatus v).x = s.x := rfl
@[simp] theorem setStatus_pc : (s.setStatus v).pc = s.pc := rfl
@[simp] theorem setStatus_dataMem : (s.setStatus v).dataMem = s.dataMem := rfl
@[simp] theorem setStatus_stackMem : (s.setStatus v).stackMem = s.stackMem := rfl
@[simp] theorem setStatus_program : (s.setStatus v).program = s.program := rfl
@[simp] theorem setStatus_status : (s.setStatus v).status = v := rfl
@[simp] theorem setStatus_trace : (s.setStatus v).trace = s.trace := rfl
@[simp] theorem setStatus_cfg : (s.setStatus v).cfg = s.cfg := rfl
end setStatus

section setTrace
variable (s : State) (v : List TraceRecord)
@[simp] theorem setTrace_x : (s.setTrace v).x = s.x := rfl
@[simp] theorem setTrace_pc : (s.setTrace v).pc = s.pc := rfl
@[simp] theorem setTrace_dataMem : (s.setTrace v).dataMem = s.dataMem := rfl
@[simp] theorem setTrace_stackMem : (s.setTrace v).stackMem = s.stackMem := rfl
@[simp] theorem setTrace_program : (s.setTrace v).program = s.program := rfl
@[simp] theorem setTrace_status : (s.setTrace v).status = s.status := rfl
@[simp] theorem setTrace_trace : (s.setTrace v).trace = v := rfl
@[simp] theorem setTrace_cfg : (s.setTrace v).cfg = s.cfg := rfl
end setTrace

section resetWith
variable (c : Config) (p : List Word)
@[simp] theorem resetWith_pc : (resetWith c p).pc = 0#32 := rfl
@[simp] theorem resetWith_dataMem : (resetWith c p).dataMem = [] := rfl
@[simp] theorem resetWith_stackMem : (resetWith c p).stackMem = [] := rfl
@[simp] theorem resetWith_program : (resetWith c p).program = p := rfl
@[simp] theorem resetWith_status : (resetWith c p).status = .running := rfl
@[simp] theorem resetWith_trace : (resetWith c p).trace = [] := rfl
@[simp] theorem resetWith_cfg : (resetWith c p).cfg = c := rfl
end resetWith

end Sys2Proof.Machine.State
end

