-- ==== Sys2Proof/Laws/Ops.lean ====
section
/-! SUPPORT. What the shared operations of Machine/Ops.lean do to each field, and what a register reads as after a write. -/

namespace Sys2Proof.Machine.State

section writeReg
variable (s : State) (r : Reg) (v : Word)
@[simp] theorem writeReg_pc : (s.writeReg r v).pc = s.pc := by unfold writeReg; split <;> rfl
@[simp] theorem writeReg_dataMem : (s.writeReg r v).dataMem = s.dataMem := by unfold writeReg; split <;> rfl
@[simp] theorem writeReg_stackMem : (s.writeReg r v).stackMem = s.stackMem := by unfold writeReg; split <;> rfl
@[simp] theorem writeReg_program : (s.writeReg r v).program = s.program := by unfold writeReg; split <;> rfl
@[simp] theorem writeReg_status : (s.writeReg r v).status = s.status := by unfold writeReg; split <;> rfl
@[simp] theorem writeReg_trace : (s.writeReg r v).trace = s.trace := by unfold writeReg; split <;> rfl
@[simp] theorem writeReg_cfg : (s.writeReg r v).cfg = s.cfg := by unfold writeReg; split <;> rfl
end writeReg

section writeLink
variable (s : State) (r : Reg) (v : Word)
@[simp] theorem writeLink_pc : (s.writeLink r v).pc = s.pc := by unfold writeLink; split <;> simp
@[simp] theorem writeLink_dataMem : (s.writeLink r v).dataMem = s.dataMem := by unfold writeLink; split <;> simp
@[simp] theorem writeLink_stackMem : (s.writeLink r v).stackMem = s.stackMem := by unfold writeLink; split <;> simp
@[simp] theorem writeLink_program : (s.writeLink r v).program = s.program := by unfold writeLink; split <;> simp
@[simp] theorem writeLink_status : (s.writeLink r v).status = s.status := by unfold writeLink; split <;> simp
@[simp] theorem writeLink_trace : (s.writeLink r v).trace = s.trace := by unfold writeLink; split <;> simp
@[simp] theorem writeLink_cfg : (s.writeLink r v).cfg = s.cfg := by unfold writeLink; split <;> simp
end writeLink

section memWrite
variable (s : State) (ea : Int) (v : Word)
@[simp] theorem memWrite_x : (s.memWrite ea v).x = s.x := by unfold memWrite; split <;> rfl
@[simp] theorem memWrite_pc : (s.memWrite ea v).pc = s.pc := by unfold memWrite; split <;> rfl
@[simp] theorem memWrite_program : (s.memWrite ea v).program = s.program := by unfold memWrite; split <;> rfl
@[simp] theorem memWrite_status : (s.memWrite ea v).status = s.status := by unfold memWrite; split <;> rfl
@[simp] theorem memWrite_trace : (s.memWrite ea v).trace = s.trace := by unfold memWrite; split <;> rfl
@[simp] theorem memWrite_cfg : (s.memWrite ea v).cfg = s.cfg := by unfold memWrite; split <;> rfl
end memWrite

section record
variable (s : State)
@[simp] theorem record_x : s.record.x = s.x := rfl
@[simp] theorem record_pc : s.record.pc = s.pc := rfl
@[simp] theorem record_dataMem : s.record.dataMem = s.dataMem := rfl
@[simp] theorem record_stackMem : s.record.stackMem = s.stackMem := rfl
@[simp] theorem record_program : s.record.program = s.program := rfl
@[simp] theorem record_status : s.record.status = s.status := rfl
@[simp] theorem record_cfg : s.record.cfg = s.cfg := rfl
@[simp] theorem record_trace : s.record.trace = s.trace ++ [⟨s.pc, s.visibleRegs⟩] := rfl

/-- What appending the record can do: nothing but the trace changes, and it changes exactly for a Running or Halted state. -/
theorem recordExecuted_cases :
    ((s.status = .running ∨ s.status = .halted) ∧ s.recordExecuted = s.record) ∨
    ((s.status ≠ .running ∧ s.status ≠ .halted) ∧ s.recordExecuted = s) := by
  unfold recordExecuted
  cases s.status <;> simp

@[simp] theorem recordExecuted_x : s.recordExecuted.x = s.x := by unfold recordExecuted; split <;> rfl
@[simp] theorem recordExecuted_pc : s.recordExecuted.pc = s.pc := by unfold recordExecuted; split <;> rfl
@[simp] theorem recordExecuted_dataMem : s.recordExecuted.dataMem = s.dataMem := by unfold recordExecuted; split <;> rfl
@[simp] theorem recordExecuted_stackMem : s.recordExecuted.stackMem = s.stackMem := by unfold recordExecuted; split <;> rfl
@[simp] theorem recordExecuted_program : s.recordExecuted.program = s.program := by unfold recordExecuted; split <;> rfl
@[simp] theorem recordExecuted_status : s.recordExecuted.status = s.status := by unfold recordExecuted; split <;> rfl
@[simp] theorem recordExecuted_cfg : s.recordExecuted.cfg = s.cfg := by unfold recordExecuted; split <;> rfl
end record

/-! ## Reads depend on the fields they name, and on no other -/

theorem readReg_congr {s t : State} (hx : t.x = s.x) (hc : t.cfg = s.cfg) (r : Reg) : t.readReg r = s.readReg r := by
  simp only [readReg, hx, hc]

theorem memRead_congr {s t : State} (hd : t.dataMem = s.dataMem) (hs : t.stackMem = s.stackMem) (hc : t.cfg = s.cfg)
    (ea : Int) : t.memRead ea = s.memRead ea := by
  simp only [memRead, hd, hs, hc]

theorem visibleRegs_congr {s t : State} (hx : t.x = s.x) (hc : t.cfg = s.cfg) : t.visibleRegs = s.visibleRegs := by
  simp only [visibleRegs, hx, hc]

@[simp] theorem setPc_readReg (s : State) (pc : Word) (r : Reg) : (s.setPc pc).readReg r = s.readReg r := rfl
@[simp] theorem setStatus_readReg (s : State) (st : Status) (r : Reg) : (s.setStatus st).readReg r = s.readReg r := rfl
@[simp] theorem setPc_memRead (s : State) (pc : Word) (ea : Int) : (s.setPc pc).memRead ea = s.memRead ea := rfl
@[simp] theorem setStatus_memRead (s : State) (st : Status) (ea : Int) : (s.setStatus st).memRead ea = s.memRead ea := rfl
@[simp] theorem record_readReg (s : State) (r : Reg) : s.record.readReg r = s.readReg r := rfl
@[simp] theorem recordExecuted_readReg (s : State) (r : Reg) : s.recordExecuted.readReg r = s.readReg r :=
  readReg_congr (by simp) (by simp) r
@[simp] theorem recordExecuted_memRead (s : State) (ea : Int) : s.recordExecuted.memRead ea = s.memRead ea :=
  memRead_congr (by simp) (by simp) (by simp) ea
@[simp] theorem memWrite_readReg (s : State) (ea : Int) (v : Word) (r : Reg) :
    (s.memWrite ea v).readReg r = s.readReg r := readReg_congr (by simp) (by simp) r
@[simp] theorem writeReg_memRead (s : State) (r : Reg) (v : Word) (ea : Int) :
    (s.writeReg r v).memRead ea = s.memRead ea := memRead_congr (by simp) (by simp) (by simp) ea
@[simp] theorem writeLink_memRead (s : State) (r : Reg) (v : Word) (ea : Int) :
    (s.writeLink r v).memRead ea = s.memRead ea := memRead_congr (by simp) (by simp) (by simp) ea

/-! ## Read after write -/

/-- What a register reads as after a write: the written one reads the value, or 0 where it is pinned, and every other one
reads as before. -/
theorem readReg_writeReg (s : State) (d r : Reg) (v : Word) :
    (s.writeReg d v).readReg r = if r = d then (if regPinned s.cfg d then 0#32 else v) else s.readReg r := by
  by_cases hr : r = d
  · subst hr
    by_cases hp : regPinned s.cfg r
    · simp only [writeReg, readReg, if_pos hp, if_true]
    · simp only [writeReg, readReg, if_neg hp, setX_cfg, setX_x, if_true, Vector.getElem_set_self]
  · by_cases hp : regPinned s.cfg d
    · simp only [writeReg, if_pos hp, if_neg hr]
    · have hn : d.toNat ≠ r.toNat := fun h => hr (BitVec.eq_of_toNat_eq h.symm)
      simp only [writeReg, if_neg hp, readReg, setX_cfg, setX_x, if_neg hr]
      congr 1
      exact Vector.getElem_set_ne _ _ hn

/-- The same for the link write, which rd = x0 skips. -/
theorem readReg_writeLink (s : State) (d r : Reg) (v : Word) :
    (s.writeLink d v).readReg r = if r = d ∧ d ≠ 0#5 then v else s.readReg r := by
  unfold writeLink
  by_cases hd : d = 0#5
  · simp [hd]
  · simp only [if_neg hd, readReg_writeReg, regPinned]
    by_cases hr : r = d <;> simp [hr, hd]

/-- A trace record shows the registers as reads return them. -/
theorem visibleRegs_get (s : State) (r : Reg) : s.visibleRegs[r.toNat]'r.isLt = s.readReg r := by
  unfold visibleRegs readReg regPinned
  by_cases hx : s.cfg.x0Hardwired = true
  · by_cases hr : r = 0#5
    · subst hr; simp [hx]
    · have hn : (0 : Nat) ≠ r.toNat := fun h => hr (BitVec.eq_of_toNat_eq (by simpa using h.symm))
      simp only [hx, if_true, true_and, if_neg hr]
      exact Vector.getElem_set_ne _ _ hn
  · simp [hx]

end Sys2Proof.Machine.State
end

