-- ==== Sys2Proof/Laws/Memory.lean ====
section
/-! SUPPORT. The word stores: read after write, the canonical form and its preservation, and what the router answers. -/

namespace Sys2Proof.Machine

namespace Memory

/-- A store whose indices start at `lo` holds nothing below it. -/
theorem read_below_lo {lo : Nat} {m : Memory} (h : m.sortedFrom lo = true) {i : Nat} (hi : i < lo) : m.read i = 0#32 := by
  induction m generalizing lo with
  | nil => rfl
  | cons c m ih =>
    simp only [sortedFrom, Bool.and_eq_true, decide_eq_true_eq] at h
    have : c.1 ≠ i := by omega
    simpa [read, this] using ih h.2 (by omega)

theorem sortedFrom_mono {lo lo' : Nat} {m : Memory} (h : m.sortedFrom lo = true) (hl : lo' ≤ lo) :
    m.sortedFrom lo' = true := by
  cases m with
  | nil => rfl
  | cons c m =>
    simp only [sortedFrom, Bool.and_eq_true, decide_eq_true_eq] at h ⊢
    exact ⟨⟨by omega, h.1.2⟩, h.2⟩

/-- A write keeps the canonical form. -/
theorem write_sortedFrom {lo : Nat} {m : Memory} (h : m.sortedFrom lo = true) {i : Nat} (hi : lo ≤ i) (v : Word) :
    (m.write i v).sortedFrom lo = true := by
  induction m generalizing lo with
  | nil => by_cases hv : v = 0#32 <;> simp [write, sortedFrom, hv, hi]
  | cons c m ih =>
    simp only [sortedFrom, Bool.and_eq_true, decide_eq_true_eq] at h
    obtain ⟨⟨h1, h2⟩, h3⟩ := h
    unfold write
    split
    · next hlt => by_cases hv : v = 0#32 <;> simp_all [sortedFrom]
    · split
      · next heq =>
        by_cases hv : v = 0#32
        · simpa [hv] using sortedFrom_mono h3 (by omega)
        · subst heq; simp [sortedFrom, hv, h3, hi]
      · simp [sortedFrom, h1, h2, ih h3 (by omega)]

theorem write_wf {m : Memory} (h : m.wf = true) (i : Nat) (v : Word) : (m.write i v).wf = true :=
  write_sortedFrom h (Nat.zero_le i) v

@[simp] theorem below_nil (n : Nat) : Memory.below n [] = true := rfl
@[simp] theorem below_cons (n : Nat) (c : Nat × Word) (m : Memory) :
    Memory.below n (c :: m) = (decide (c.1 < n) && m.below n) := rfl

/-- A write inside a store's size keeps the store inside it. -/
theorem write_below {n : Nat} {m : Memory} (h : m.below n = true) {i : Nat} (hi : i < n) (v : Word) :
    (m.write i v).below n = true := by
  induction m with
  | nil => by_cases hv : v = 0#32 <;> simp [write, hv, hi]
  | cons c m ih =>
    simp only [below_cons, Bool.and_eq_true, decide_eq_true_eq] at h
    unfold write
    split
    · by_cases hv : v = 0#32 <;> simp [hv, hi, h]
    · split
      · by_cases hv : v = 0#32 <;> simp [hv, hi, h]
      · simp [h.1, ih h.2]

/-- A word reads as it was last written. -/
theorem read_write_same {lo : Nat} {m : Memory} (h : m.sortedFrom lo = true) (i : Nat) (v : Word) :
    (m.write i v).read i = v := by
  induction m generalizing lo with
  | nil => by_cases hv : v = 0#32 <;> simp [write, read, hv]
  | cons c m ih =>
    simp only [sortedFrom, Bool.and_eq_true, decide_eq_true_eq] at h
    unfold write
    split
    · next hlt =>
      by_cases hv : v = 0#32
      · have : c.1 ≠ i := by omega
        simpa [hv, read, this] using read_below_lo h.2 (by omega)
      · simp [hv, read]
    · split
      · next heq =>
        by_cases hv : v = 0#32
        · simpa [hv] using read_below_lo h.2 (by omega)
        · simp [hv, read]
      · next h1 h2 =>
        have : c.1 ≠ i := fun e => h2 e.symm
        simpa [read, this] using ih h.2

/-- A write leaves every other word alone. -/
theorem read_write_ne (m : Memory) {i j : Nat} (hij : i ≠ j) (v : Word) : (m.write i v).read j = m.read j := by
  induction m with
  | nil => by_cases hv : v = 0#32 <;> simp [write, read, hv, hij]
  | cons c m ih =>
    unfold write
    split
    · by_cases hv : v = 0#32 <;> simp [hv, read, hij]
    · split
      · next heq => subst heq; by_cases hv : v = 0#32 <;> simp [hv, read, hij]
      · simp [read, ih]

end Memory

/-! ## The router -/

theorem wordIndex_lt {base : Word} {size : Nat} {ea : Int} (h : inRegion base size ea) : wordIndex base ea < size := by
  obtain ⟨h1, h2⟩ := h
  unfold wordIndex
  omega

/-- A data answer: the stack, if on, does not hold the address, the data region does, and the index is inside it. -/
theorem route_data {c : Config} {ea : Int} {i : Nat} (h : route c ea = .data i) :
    ¬(c.alignCheck = true ∧ ea % 4 ≠ 0) ∧ ¬(c.stackEnabled = true ∧ inRegion c.stackBase c.stackSize ea) ∧
    inRegion c.memStart c.memSize ea ∧ i = wordIndex c.memStart ea ∧ i < c.memSize := by
  unfold route at h
  split at h
  · cases h
  · split at h
    · cases h
    · split at h
      · next h1 h2 h3 => cases h; exact ⟨h1, h2, h3, rfl, wordIndex_lt h3⟩
      · cases h

/-- A stack answer: the stack is on and holds the address, and the index is inside it. -/
theorem route_stack {c : Config} {ea : Int} {i : Nat} (h : route c ea = .stack i) :
    ¬(c.alignCheck = true ∧ ea % 4 ≠ 0) ∧ c.stackEnabled = true ∧ inRegion c.stackBase c.stackSize ea ∧
    i = wordIndex c.stackBase ea ∧ i < c.stackSize := by
  unfold route at h
  split at h
  · cases h
  · split at h
    · next h1 h2 => cases h; exact ⟨h1, h2.1, h2.2, rfl, wordIndex_lt h2.2⟩
    · split at h <;> cases h

/-! ## Every operation on memory keeps the canonical form -/

/-- `State.memWrite` is the one operation that changes a store, and it keeps both in canonical form and inside their sizes. -/
theorem State.memWrite_keeps_canonical {s : State} (ea : Int) (v : Word)
    (hd : s.dataMem.wf = true) (hs : s.stackMem.wf = true)
    (hdb : s.dataMem.below s.cfg.memSize = true) (hsb : s.stackMem.below s.cfg.stackSize = true) :
    (s.memWrite ea v).dataMem.wf = true ∧ (s.memWrite ea v).stackMem.wf = true ∧
    (s.memWrite ea v).dataMem.below s.cfg.memSize = true ∧ (s.memWrite ea v).stackMem.below s.cfg.stackSize = true := by
  unfold State.memWrite
  split
  · next i h => exact ⟨hd, Memory.write_wf hs _ _, hdb, Memory.write_below hsb (route_stack h).2.2.2.2 _⟩
  · next i h => exact ⟨Memory.write_wf hd _ _, hs, Memory.write_below hdb (route_data h).2.2.2.2 _, hsb⟩
  · exact ⟨hd, hs, hdb, hsb⟩

end Sys2Proof.Machine
end

