-- ==== Sys2Proof/Laws/Numbers.lean ====
section
/-! SUPPORT. The integer arithmetic of the spec, narrowed by `norm32`, as arithmetic on 32-bit patterns. -/

namespace Sys2Proof.Machine

theorem norm32_sint (v : Word) : norm32 (sint v) = v := BitVec.ofInt_toInt

theorem norm32_uint (v : Word) : norm32 (uint v) = v := by
  simp [norm32, uint, toBinary]

theorem norm32_add (m n : Int) : norm32 (m + n) = norm32 m + norm32 n := BitVec.ofInt_add m n

theorem norm32_sub (m n : Int) : norm32 (m - n) = norm32 m - norm32 n := by
  rw [norm32, toBinary, Int.sub_eq_add_neg, BitVec.ofInt_add, BitVec.ofInt_neg, ← BitVec.sub_eq_add_neg]; rfl

/-- `norm32` of the signed value of a narrower field is its sign extension. -/
theorem norm32_toSigned {n : Nat} (f : BitVec n) : norm32 (toSigned f) = f.signExtend 32 := rfl

theorem norm32_four : norm32 4 = 4#32 := by decide

theorem aluAdd_eq (a b : Word) : aluAdd a b = a + b := by
  rw [aluAdd, norm32_add, norm32_sint, norm32_sint]

theorem aluSub_eq (a b : Word) : aluSub a b = a - b := by
  rw [aluSub, norm32_sub, norm32_sint, norm32_sint]

theorem aluAddImm_eq (a : Word) (imm : BitVec 12) : aluAddImm a imm = a + imm.signExtend 32 := by
  rw [aluAddImm, norm32_add, norm32_sint, norm32_toSigned]

theorem aluSra_eq (a b : Word) : aluSra a b = a.sshiftRight (b.toNat % 32) := by
  have h : (b.extractLsb' 0 5).toNat = b.toNat % 32 := by simp
  rw [aluSra, h]
  rfl

theorem State.pcPlus_eq (s : State) (n : Int) : s.pcPlus n = s.pc + norm32 n := by
  rw [State.pcPlus, norm32_add, norm32_uint]

@[simp] theorem State.pcPlus_four (s : State) : s.pcPlus 4 = s.pc + 4#32 := by
  rw [State.pcPlus_eq, norm32_four]

theorem State.branchTarget_eq (s : State) (taken : Bool) (imm : BitVec 13) :
    s.branchTarget taken imm = s.pc + (if taken then imm.signExtend 32 else 4#32) := by
  cases taken
  · simp [State.branchTarget]
  · simp [State.branchTarget, State.pcPlus_eq, norm32_toSigned]

theorem State.jalTarget_eq (s : State) (imm : BitVec 21) : s.jalTarget imm = s.pc + imm.signExtend 32 := by
  rw [State.jalTarget, State.pcPlus_eq, norm32_toSigned]

theorem State.linkValue_eq (s : State) : s.linkValue = s.pc + 4#32 := s.pcPlus_four

/-- Clearing bit 0 of the integer and then narrowing clears bit 0 of the pattern. -/
theorem norm32_clearBit0 (n : Int) : norm32 (clearBit0 n) = norm32 n &&& ~~~1#32 := by
  apply BitVec.eq_of_toNat_eq
  have h : (norm32 n &&& ~~~1#32).toNat = 2 * ((norm32 n).toNat / 2) := by
    have e : norm32 n &&& ~~~1#32 = (norm32 n >>> 1) <<< 1 := by
      apply BitVec.eq_of_getLsbD_eq
      intro i hi
      interval_cases i <;> simp
    rw [e, BitVec.toNat_shiftLeft, BitVec.toNat_ushiftRight, Nat.shiftLeft_eq, Nat.shiftRight_eq_div_pow]
    have := (norm32 n).isLt
    omega
  rw [h]
  simp only [norm32, toBinary, clearBit0, BitVec.toNat_ofInt]
  omega

theorem jalrTarget_eq (base : Word) (imm : BitVec 12) :
    jalrTarget base imm = (base + imm.signExtend 32) &&& ~~~1#32 := by
  rw [jalrTarget, norm32_clearBit0, norm32_add, norm32_sint, norm32_toSigned]

theorem aluSlt_eq (a b : Word) : aluSlt a b = if a.slt b then 1#32 else 0#32 := by
  by_cases h : a.toInt < b.toInt <;> simp [aluSlt, BitVec.slt, sint, toSigned, h]

end Sys2Proof.Machine
end

