-- ==== Sys2Proof/Laws/Exec.lean ====
section
/-! SUPPORT. What the shared operations of the instruction families do, in the terms of Safety.lean: one lemma for each, which
says everything it can do. -/

namespace Sys2Proof.Machine

/-! ## Unchanged memory and registers -/

theorem MemSame.of_stores {s t : State} (hd : t.dataMem = s.dataMem) (hs : t.stackMem = s.stackMem) (hc : t.cfg = s.cfg) :
    MemSame s t := ⟨fun i => by rw [hd], fun i => by rw [hs], fun ea => State.memRead_congr hd hs hc ea⟩

theorem RegsSameBut.of_x {s t : State} (hx : t.x = s.x) (hc : t.cfg = s.cfg) (rd : Option Reg) : RegsSameBut rd s t :=
  fun r _ => State.readReg_congr hx hc r

theorem MemSame.trans {s t u : State} (h1 : MemSame s t) (h2 : MemSame t u) : MemSame s u :=
  ⟨fun i => (h2.1 i).trans (h1.1 i), fun i => (h2.2.1 i).trans (h1.2.1 i), fun a => (h2.2.2 a).trans (h1.2.2 a)⟩

theorem RegsSameBut.mono {s t : State} (h : RegsSameBut none s t) (rd : Option Reg) : RegsSameBut rd s t :=
  fun r _ => h r nofun

/-! ## The effects -/

/-- `State.finish` writes rd and falls through. -/
theorem State.finish_writesRd (s : State) (rd : Reg) (v : Word) : ∃ t, s.finish rd v = .next t ∧ WritesRd rd v s t := by
  refine ⟨_, rfl, ?_, ?_, ?_, ?_, ?_⟩
  · rw [State.advance, State.setPc_readReg, State.readReg_writeReg, if_pos rfl]
  · intro r hr
    have hne : r ≠ rd := fun h => hr (by rw [h])
    rw [State.advance, State.setPc_readReg, State.readReg_writeReg, if_neg hne]
  · simp [State.advance]
  · exact MemSame.of_stores (by simp [State.advance]) (by simp [State.advance]) (by simp [State.advance])
  · simp [RunSame, State.advance]

/-- `State.setPc` only jumps. -/
theorem State.setPc_onlyJumps (s : State) (target : Word) : OnlyJumps target s (s.setPc target) :=
  ⟨rfl, RegsSameBut.of_x rfl rfl none, MemSame.of_stores rfl rfl rfl, rfl, rfl, rfl, rfl⟩

/-- `State.branch` only jumps, by the immediate or by 4. -/
theorem State.branch_onlyJumps (s : State) (taken : Bool) (imm : BitVec 13) :
    ∃ t, s.branch taken imm = .next t ∧ OnlyJumps (s.pc + if taken then imm.signExtend 32 else 4#32) s t :=
  ⟨_, rfl, by rw [← State.branchTarget_eq]; exact s.setPc_onlyJumps _⟩

/-- `State.stop` only stops. -/
theorem State.stop_onlyStops (s : State) (st : Status) : OnlyStops st s (s.stop st) :=
  ⟨rfl, rfl, RegsSameBut.of_x rfl rfl none, MemSame.of_stores rfl rfl rfl, rfl, rfl, rfl⟩

/-- The link write and a jump. -/
theorem State.writeLink_linksAndJumps (s : State) (rd : Reg) (target : Word) :
    LinksAndJumps rd target s ((s.writeLink rd s.linkValue).setPc target) := by
  refine ⟨?_, ?_, rfl, ?_, ?_⟩
  · intro h
    rw [State.setPc_readReg, State.readReg_writeLink, if_pos ⟨rfl, h⟩, State.linkValue_eq]
  · intro r hr
    rw [State.setPc_readReg, State.readReg_writeLink, if_neg]
    rintro ⟨rfl, h⟩
    exact hr (by rw [if_neg h])
  · exact MemSame.of_stores (by simp) (by simp) (by simp)
  · simp [RunSame]

/-- `State.memWrite` stores one word, or nothing where the address is unmapped. -/
theorem State.memWrite_storesWord {s : State} (hd : s.dataMem.wf = true) (hs : s.stackMem.wf = true) (ea : Int) (v : Word) :
    StoresWord ea v s (s.memWrite ea v) := by
  have data : ∀ i, (s.memWrite ea v).dataMem.read i = if route s.cfg ea = .data i then v else s.dataMem.read i := by
    intro i
    unfold State.memWrite
    split
    · next h => simp [h]
    · next k h =>
      by_cases hk : k = i
      · subst hk; simpa [h] using Memory.read_write_same hd k v
      · simpa [h, hk] using Memory.read_write_ne s.dataMem hk v
    · next h => simp [h]
  have stack : ∀ i, (s.memWrite ea v).stackMem.read i = if route s.cfg ea = .stack i then v else s.stackMem.read i := by
    intro i
    unfold State.memWrite
    split
    · next k h =>
      by_cases hk : k = i
      · subst hk; simpa [h] using Memory.read_write_same hs k v
      · simpa [h, hk] using Memory.read_write_ne s.stackMem hk v
    · next h => simp [h]
    · next h => simp [h]
  refine ⟨data, stack, fun a => ?_⟩
  simp only [State.memRead, State.memWrite_cfg]
  cases ha : route s.cfg a with
  | stack k => simp only [stack k]; by_cases he : route s.cfg ea = .stack k <;> simp [he, eq_comm]
  | data k => simp only [data k]; by_cases he : route s.cfg ea = .data k <;> simp [he, eq_comm]
  | unmapped =>
    have : ¬(Region.unmapped = route s.cfg ea ∧ route s.cfg ea ≠ .unmapped) := fun h => h.2 h.1.symm
    simp only [if_neg this]

end Sys2Proof.Machine
end

