-- ==== Sys2Proof/Laws/PerInstr.lean ====
section
/-! SUPPORT. Laws stated per instruction, one lemma for each constructor of Instr.
EncodesFields: the register and opcode operands of an instruction stand in the fields of its word that R61 and R62 give them. -/

namespace Sys2Proof.Laws.EncodesFields

/-- The rd operand, of the formats that have one. -/
def rdOperand (i : Instr) : Option Reg :=
  match i with
  | .add rd _ _ | .sub _ rd _ _ | .slt _ rd _ _ | .sra _ rd _ _ | .orReg _ rd _ _ | .andReg _ rd _ _
  | .rzero001 _ rd _ _ | .rzero011 _ rd _ _ | .rzero100 _ rd _ _
  | .lw _ rd _ _ | .addi _ rd _ _ | .jalr _ rd _ _ | .jal rd _ => some rd
  | .halt | .sw _ _ _ _ | .beq _ _ _ | .bne _ _ _ | .bnop010 _ _ _ | .bnop011 _ _ _ | .bnop100 _ _ _
  | .bnop101 _ _ _ | .bnop110 _ _ _ | .bnop111 _ _ _ | .invalid _ => none

/-- The rs1 operand, of the formats that have one. -/
def rs1Operand (i : Instr) : Option Reg :=
  match i with
  | .add _ rs1 _ | .sub _ _ rs1 _ | .slt _ _ rs1 _ | .sra _ _ rs1 _ | .orReg _ _ rs1 _ | .andReg _ _ rs1 _
  | .rzero001 _ _ rs1 _ | .rzero011 _ _ rs1 _ | .rzero100 _ _ rs1 _
  | .lw _ _ rs1 _ | .addi _ _ rs1 _ | .jalr _ _ rs1 _ | .sw _ rs1 _ _ | .beq rs1 _ _ | .bne rs1 _ _
  | .bnop010 rs1 _ _ | .bnop011 rs1 _ _ | .bnop100 rs1 _ _ | .bnop101 rs1 _ _ | .bnop110 rs1 _ _
  | .bnop111 rs1 _ _ => some rs1
  | .halt | .jal _ _ | .invalid _ => none

/-- The rs2 operand, of the formats that have one. -/
def rs2Operand (i : Instr) : Option Reg :=
  match i with
  | .add _ _ rs2 | .sub _ _ _ rs2 | .slt _ _ _ rs2 | .sra _ _ _ rs2 | .orReg _ _ _ rs2 | .andReg _ _ _ rs2
  | .rzero001 _ _ _ rs2 | .rzero011 _ _ _ rs2 | .rzero100 _ _ _ rs2
  | .sw _ _ rs2 _ | .beq _ rs2 _ | .bne _ rs2 _ | .bnop010 _ rs2 _ | .bnop011 _ rs2 _ | .bnop100 _ rs2 _
  | .bnop101 _ rs2 _ | .bnop110 _ rs2 _ | .bnop111 _ rs2 _ => some rs2
  | .halt | .lw _ _ _ _ | .addi _ _ _ _ | .jalr _ _ _ _ | .jal _ _ | .invalid _ => none

/-- The opcode of the table of R63 that the instruction belongs to. -/
def opcodeFor (i : Instr) : Option (BitVec 7) :=
  match i with
  | .add _ _ _ | .sub _ _ _ _ | .slt _ _ _ _ | .sra _ _ _ _ | .orReg _ _ _ _ | .andReg _ _ _ _
  | .rzero001 _ _ _ _ | .rzero011 _ _ _ _ | .rzero100 _ _ _ _ => some 0b0110011#7
  | .lw _ _ _ _ => some 0b0000011#7
  | .addi _ _ _ _ => some 0b0010011#7
  | .jalr _ _ _ _ => some 0b1100111#7
  | .sw _ _ _ _ => some 0b0100011#7
  | .beq _ _ _ | .bne _ _ _ | .bnop010 _ _ _ | .bnop011 _ _ _ | .bnop100 _ _ _ | .bnop101 _ _ _
  | .bnop110 _ _ _ | .bnop111 _ _ _ => some 0b1100011#7
  | .jal _ _ => some 0b1101111#7
  | .halt | .invalid _ => none

/-- Every operand and the opcode are read back from the encoded word. -/
def Statement (i : Instr) : Prop :=
  ∀ sentinel : Word,
    (∀ r, rdOperand i = some r → rdOf (encode sentinel i) = r) ∧
    (∀ r, rs1Operand i = some r → rs1Of (encode sentinel i) = r) ∧
    (∀ r, rs2Operand i = some r → rs2Of (encode sentinel i) = r) ∧
    ∀ op, opcodeFor i = some op → opcodeOf (encode sentinel i) = op

/-- An instruction of the R layout whose rd, rs1, rs2 and opcode operands, where it has them, are the fields it is packed from. -/
theorem of_packR {i : Instr} {f7 : BitVec 7} {r2 r1 : Reg} {f3 : BitVec 3} {d : Reg} {op : BitVec 7}
    (he : ∀ sentinel, encode sentinel i = packR f7 r2 r1 f3 d op) (hd : ∀ r, rdOperand i = some r → d = r)
    (h1 : ∀ r, rs1Operand i = some r → r1 = r) (h2 : ∀ r, rs2Operand i = some r → r2 = r)
    (ho : ∀ o, opcodeFor i = some o → op = o) : Statement i := fun sentinel =>
  ⟨fun r h => by rw [he, rdOf_packR]; exact hd r h, fun r h => by rw [he, rs1Of_packR]; exact h1 r h,
    fun r h => by rw [he, rs2Of_packR]; exact h2 r h, fun o h => by rw [he, opcodeOf_packR]; exact ho o h⟩

theorem halt : Statement .halt := fun _ => ⟨nofun, nofun, nofun, nofun⟩
theorem add (rd rs1 rs2 : Reg) : Statement (.add rd rs1 rs2) := of_packR (fun _ => rfl) (fun _ => Option.some.inj) (fun _ => Option.some.inj) (fun _ => Option.some.inj) (fun _ => Option.some.inj)
theorem sub (f : BitVec 7) (rd rs1 rs2 : Reg) : Statement (.sub f rd rs1 rs2) := of_packR (fun _ => rfl) (fun _ => Option.some.inj) (fun _ => Option.some.inj) (fun _ => Option.some.inj) (fun _ => Option.some.inj)
theorem slt (f : BitVec 7) (rd rs1 rs2 : Reg) : Statement (.slt f rd rs1 rs2) := of_packR (fun _ => rfl) (fun _ => Option.some.inj) (fun _ => Option.some.inj) (fun _ => Option.some.inj) (fun _ => Option.some.inj)
theorem sra (f : BitVec 7) (rd rs1 rs2 : Reg) : Statement (.sra f rd rs1 rs2) := of_packR (fun _ => rfl) (fun _ => Option.some.inj) (fun _ => Option.some.inj) (fun _ => Option.some.inj) (fun _ => Option.some.inj)
theorem orReg (f : BitVec 7) (rd rs1 rs2 : Reg) : Statement (.orReg f rd rs1 rs2) := of_packR (fun _ => rfl) (fun _ => Option.some.inj) (fun _ => Option.some.inj) (fun _ => Option.some.inj) (fun _ => Option.some.inj)
theorem andReg (f : BitVec 7) (rd rs1 rs2 : Reg) : Statement (.andReg f rd rs1 rs2) := of_packR (fun _ => rfl) (fun _ => Option.some.inj) (fun _ => Option.some.inj) (fun _ => Option.some.inj) (fun _ => Option.some.inj)
theorem rzero001 (f : BitVec 7) (rd rs1 rs2 : Reg) : Statement (.rzero001 f rd rs1 rs2) := of_packR (fun _ => rfl) (fun _ => Option.some.inj) (fun _ => Option.some.inj) (fun _ => Option.some.inj) (fun _ => Option.some.inj)
theorem rzero011 (f : BitVec 7) (rd rs1 rs2 : Reg) : Statement (.rzero011 f rd rs1 rs2) := of_packR (fun _ => rfl) (fun _ => Option.some.inj) (fun _ => Option.some.inj) (fun _ => Option.some.inj) (fun _ => Option.some.inj)
theorem rzero100 (f : BitVec 7) (rd rs1 rs2 : Reg) : Statement (.rzero100 f rd rs1 rs2) := of_packR (fun _ => rfl) (fun _ => Option.some.inj) (fun _ => Option.some.inj) (fun _ => Option.some.inj) (fun _ => Option.some.inj)
theorem lw (f : BitVec 3) (rd rs1 : Reg) (imm : BitVec 12) : Statement (.lw f rd rs1 imm) := of_packR (fun _ => packI_eq ..) (fun _ => Option.some.inj) (fun _ => Option.some.inj) nofun (fun _ => Option.some.inj)
theorem addi (f : BitVec 3) (rd rs1 : Reg) (imm : BitVec 12) : Statement (.addi f rd rs1 imm) := of_packR (fun _ => packI_eq ..) (fun _ => Option.some.inj) (fun _ => Option.some.inj) nofun (fun _ => Option.some.inj)
theorem jalr (f : BitVec 3) (rd rs1 : Reg) (imm : BitVec 12) : Statement (.jalr f rd rs1 imm) := of_packR (fun _ => packI_eq ..) (fun _ => Option.some.inj) (fun _ => Option.some.inj) nofun (fun _ => Option.some.inj)
theorem sw (f : BitVec 3) (rs1 rs2 : Reg) (imm : BitVec 12) : Statement (.sw f rs1 rs2 imm) := of_packR (fun _ => rfl) nofun (fun _ => Option.some.inj) (fun _ => Option.some.inj) (fun _ => Option.some.inj)
theorem beq (rs1 rs2 : Reg) (imm : BitVec 13) : Statement (.beq rs1 rs2 imm) := of_packR (fun _ => rfl) nofun (fun _ => Option.some.inj) (fun _ => Option.some.inj) (fun _ => Option.some.inj)
theorem bne (rs1 rs2 : Reg) (imm : BitVec 13) : Statement (.bne rs1 rs2 imm) := of_packR (fun _ => rfl) nofun (fun _ => Option.some.inj) (fun _ => Option.some.inj) (fun _ => Option.some.inj)
theorem bnop010 (rs1 rs2 : Reg) (imm : BitVec 13) : Statement (.bnop010 rs1 rs2 imm) := of_packR (fun _ => rfl) nofun (fun _ => Option.some.inj) (fun _ => Option.some.inj) (fun _ => Option.some.inj)
theorem bnop011 (rs1 rs2 : Reg) (imm : BitVec 13) : Statement (.bnop011 rs1 rs2 imm) := of_packR (fun _ => rfl) nofun (fun _ => Option.some.inj) (fun _ => Option.some.inj) (fun _ => Option.some.inj)
theorem bnop100 (rs1 rs2 : Reg) (imm : BitVec 13) : Statement (.bnop100 rs1 rs2 imm) := of_packR (fun _ => rfl) nofun (fun _ => Option.some.inj) (fun _ => Option.some.inj) (fun _ => Option.some.inj)
theorem bnop101 (rs1 rs2 : Reg) (imm : BitVec 13) : Statement (.bnop101 rs1 rs2 imm) := of_packR (fun _ => rfl) nofun (fun _ => Option.some.inj) (fun _ => Option.some.inj) (fun _ => Option.some.inj)
theorem bnop110 (rs1 rs2 : Reg) (imm : BitVec 13) : Statement (.bnop110 rs1 rs2 imm) := of_packR (fun _ => rfl) nofun (fun _ => Option.some.inj) (fun _ => Option.some.inj) (fun _ => Option.some.inj)
theorem bnop111 (rs1 rs2 : Reg) (imm : BitVec 13) : Statement (.bnop111 rs1 rs2 imm) := of_packR (fun _ => rfl) nofun (fun _ => Option.some.inj) (fun _ => Option.some.inj) (fun _ => Option.some.inj)
theorem jal (rd : Reg) (imm : BitVec 21) : Statement (.jal rd imm) := of_packR (fun _ => packJ_eq ..) (fun _ => Option.some.inj) nofun nofun (fun _ => Option.some.inj)
theorem invalid (w : Word) : Statement (.invalid w) := fun _ => ⟨nofun, nofun, nofun, nofun⟩

end Sys2Proof.Laws.EncodesFields
end

