-- ==== Sys2Proof/Laws/Step.lean ====
section
/-! SUPPORT. What an instruction does to the run (status, trace, program, configuration), and everything a step can do: the
two stops before the fetch, or the instruction at the pc and the trace record. -/

namespace Sys2Proof.Machine

/-- An instruction keeps program, configuration and trace, and the status but for HALT and for INVALID under the DecodeError
policy, which only stop. -/
theorem exec_run {i : Instr} {s t : State} (h : exec i s = .next t) :
    t.program = s.program ∧ t.cfg = s.cfg ∧ t.trace = s.trace ∧
    (t.status = s.status ∨ (i = .halt ∧ t = s.stop .halted) ∨
      ((∃ w, i = .invalid w) ∧ s.cfg.invalidOpcodePolicy = .decodeError ∧ t = s.stop .refusedDecodeError)) := by
  cases i <;> simp only [exec, execAdd, execSub, execSlt, execSra, execOr, execAnd, execRzero001, execRzero011,
    execRzero100, execLw, execAddi, execJalr, execSw, execBeq, execBne, execBnop010, execBnop011, execBnop100,
    execBnop101, execBnop110, execBnop111, execJal, execHalt, execInvalid, State.finish, State.branch] at h
  case invalid w =>
    split at h <;> cases h
    · simp [State.advance]
    · next hp => exact ⟨rfl, rfl, rfl, .inr (.inr ⟨⟨w, rfl⟩, hp, rfl⟩)⟩
  case halt => cases h; exact ⟨rfl, rfl, rfl, .inr (.inl ⟨rfl, rfl⟩)⟩
  all_goals cases h; simp [State.advance]

/-- Inside the program, the fetched word is the one at the pc. -/
theorem State.fetchWord_eq {s : State} {w : Word} (h : s.program[s.pc.toNat / 4]? = some w) : s.fetchWord = w := by
  simp [State.fetchWord, List.getD_eq_getElem?_getD, h]

/-- The two low bits of the pc are 0 exactly at a multiple of 4. -/
theorem lowBits_zero_iff (pc : Word) : pc.extractLsb' 0 2 = 0#2 ↔ pc.toNat % 4 = 0 :=
  ⟨fun h => by simpa using congrArg BitVec.toNat h, fun h => BitVec.eq_of_toNat_eq (by simpa using h)⟩

/-- Everything a step that answers a next state can do. -/
theorem step_cases {s t : State} (h : step s = .next t) : s.status = .running ∧
    ((s.outsideProgram ∧ t = s.stop .ended) ∨
      (¬s.outsideProgram ∧ s.fetchFaults ∧ t = s.stop .faultedFetchMisaligned) ∨
      (Fetches s s.fetchWord ∧ ∃ u, exec s.fetched s = .next u ∧ t = u.recordExecuted)) := by
  unfold step at h
  split at h
  case h_1 hr =>
    refine ⟨hr, ?_⟩
    by_cases ho : s.outsideProgram
    · rw [State.stopBeforeFetch, if_pos ho] at h
      exact .inl ⟨ho, by injection h with h; exact h.symm⟩
    by_cases hf : s.fetchFaults
    · rw [State.stopBeforeFetch, if_neg ho, if_pos hf] at h
      exact .inr (.inl ⟨ho, hf, by injection h with h; exact h.symm⟩)
    rw [State.stopBeforeFetch, if_neg ho, if_neg hf] at h
    have hlt : s.pc.toNat / 4 < s.program.length := by simp only [State.outsideProgram] at ho; omega
    have hw := List.getElem?_eq_getElem hlt
    have hal : s.pc.toNat % 4 = 0 ∨ s.cfg.misalignedFetchPolicy = .truncate := by
      rw [← lowBits_zero_iff]
      by_contra hc
      rw [not_or] at hc
      exact hf ⟨hc.1, by cases hp : s.cfg.misalignedFetchPolicy; rfl; exact absurd hp hc.2⟩
    simp only at h
    split at h
    · next u hu =>
      injection h with h
      exact .inr (.inr ⟨⟨hr, by rw [State.fetchWord_eq hw]; exact hw, hal⟩, u, hu, h.symm⟩)
    · cases h
    · cases h
  all_goals cases h

end Sys2Proof.Machine
end

