-- ==== Sys2Proof/Tests/Slice0.lean ====
section
/-! SUPPORT. The model's own tests: ill-formed terms the checks refuse, words written out field by field from the encoding
tables of 30_encoding.md, one step of each instruction with the result 95_test_vectors.md gives, and a witness of the
hypotheses of each statement of Certificates/Slice0/Obligations.lean. -/

namespace Sys2Proof.Tests

open Sys2Proof Sys2Proof.Machine

/-! ## WellFormed: each check refuses an ill-formed term -/

theorem test_wf_sub_funct7_zero : (Instr.sub 0#7 3#5 1#5 2#5).wellFormed = false := by decide
theorem test_wf_beq_odd : (Instr.beq 1#5 2#5 1#13).wellFormed = false := by decide
theorem test_wf_bne_odd : (Instr.bne 1#5 2#5 4095#13).wellFormed = false := by decide
theorem test_wf_bnop_odd :
    ([Instr.bnop010 1#5 2#5 1#13, .bnop011 1#5 2#5 1#13, .bnop100 1#5 2#5 1#13, .bnop101 1#5 2#5 1#13,
      .bnop110 1#5 2#5 1#13, .bnop111 1#5 2#5 1#13].any Instr.wellFormed) = false := by decide
theorem test_wf_jal_odd : (Instr.jal 1#5 17#21).wellFormed = false := by decide
theorem test_wf_invalid_table_opcode :
    ([Instr.invalid 0x002081B3#32, .invalid 0x0040A283#32, .invalid 0x00500013#32, .invalid 0x000080E7#32,
      .invalid 0x0050A423#32, .invalid 0x00208863#32, .invalid 0x010000EF#32].any Instr.wellFormed) = false := by decide
theorem test_admitted_sentinel_word : (Instr.beq 0#5 0#5 0#13).admitted Config.defaultSentinel = false := by decide
theorem test_admitted_other_sentinel : (Instr.beq 0#5 0#5 0#13).admitted 0xFFFFFFFF#32 = true := by decide

/-! ## Decoding: words written out field by field (R61, R62, R69 to R73), and the vectors of 95_test_vectors.md L2.0 -/

/-- The decoder under the default sentinel. -/
def dec (w : Word) : Instr := decode 0x00000063#32 w

theorem test_decode_halt : dec 0b0000000_00000_00000_000_00000_1100011#32 = .halt := by decide
theorem test_decode_add : dec 0b0000000_00010_00001_000_00011_0110011#32 = .add 3#5 1#5 2#5 := by decide
theorem test_decode_sub : dec 0b0100000_00010_00001_000_00011_0110011#32 = .sub 0b0100000#7 3#5 1#5 2#5 := by decide
theorem test_decode_sub_mul_word : dec 0x022081B3#32 = .sub 1#7 3#5 1#5 2#5 := by decide
theorem test_decode_slt : dec 0b0100000_00010_00001_010_00011_0110011#32 = .slt 0b0100000#7 3#5 1#5 2#5 := by decide
theorem test_decode_sra : dec 0b0000000_00010_00001_101_00011_0110011#32 = .sra 0#7 3#5 1#5 2#5 := by decide
theorem test_decode_or : dec 0b0000000_00010_00001_110_00011_0110011#32 = .orReg 0#7 3#5 1#5 2#5 := by decide
theorem test_decode_and : dec 0b0000000_00010_00001_111_00011_0110011#32 = .andReg 0#7 3#5 1#5 2#5 := by decide
theorem test_decode_rzero001 : dec 0b0000000_00010_00001_001_00011_0110011#32 = .rzero001 0#7 3#5 1#5 2#5 := by decide
theorem test_decode_rzero011 : dec 0b0000000_00010_00001_011_00011_0110011#32 = .rzero011 0#7 3#5 1#5 2#5 := by decide
theorem test_decode_rzero100 : dec 0b0000000_00010_00001_100_00011_0110011#32 = .rzero100 0#7 3#5 1#5 2#5 := by decide
theorem test_decode_lw : dec 0b000000000100_00001_010_00101_0000011#32 = .lw 2#3 5#5 1#5 4#12 := by decide
theorem test_decode_addi : dec 0b111111111111_00001_100_00001_0010011#32 = .addi 4#3 1#5 1#5 0xFFF#12 := by decide
theorem test_decode_jalr : dec 0b111111111111_00101_000_00011_1100111#32 = .jalr 0#3 3#5 5#5 0xFFF#12 := by decide
theorem test_decode_sw : dec 0b1111111_00101_00010_010_11100_0100011#32 = .sw 2#3 2#5 5#5 0xFFC#12 := by decide
theorem test_decode_beq : dec 0b0000000_00010_00001_000_10000_1100011#32 = .beq 1#5 2#5 16#13 := by decide
theorem test_decode_bne : dec 0b1111111_00010_00001_001_11001_1100011#32 = .bne 1#5 2#5 0x1FF8#13 := by decide
theorem test_decode_bnop010 : dec 0b0000000_00010_00001_010_01000_1100011#32 = .bnop010 1#5 2#5 8#13 := by decide
theorem test_decode_bnop011 : dec 0b0000000_00010_00001_011_01000_1100011#32 = .bnop011 1#5 2#5 8#13 := by decide
theorem test_decode_bnop100 : dec 0b0000000_00010_00001_100_01000_1100011#32 = .bnop100 1#5 2#5 8#13 := by decide
theorem test_decode_bnop101 : dec 0b0000000_00010_00001_101_01000_1100011#32 = .bnop101 1#5 2#5 8#13 := by decide
theorem test_decode_bnop110 : dec 0b0000000_00010_00001_110_01000_1100011#32 = .bnop110 1#5 2#5 8#13 := by decide
theorem test_decode_bnop111 : dec 0b0000000_00010_00001_111_01000_1100011#32 = .bnop111 1#5 2#5 8#13 := by decide
theorem test_decode_jal : dec 0b0_0000001000_0_00000000_00001_1101111#32 = .jal 1#5 16#21 := by decide
theorem test_decode_invalid :
    dec 0b00010010001101000101_00001_0110111#32 = .invalid 0x123450B7#32 ∧ dec 0#32 = .invalid 0#32 ∧
    dec 0x0FF0000F#32 = .invalid 0x0FF0000F#32 ∧ dec 0x00000073#32 = .invalid 0x00000073#32 := by decide

/-- The immediates of L2.0. -/
theorem test_immediates_i_s :
    toSigned (immI 0x80000013#32) = -2048 ∧ toSigned (immI 0x7FF00013#32) = 2047 ∧ toSigned (immI 0xFFF00013#32) = -1 ∧
    toSigned (immS 0xFE002FA3#32) = -1 ∧ toSigned (immS 0x7E002FA3#32) = 2047 ∧
    toSigned (immS 0x80002023#32) = -2048 := by decide
theorem test_immediates_b :
    toSigned (immB 0x80000063#32) = -4096 ∧ toSigned (immB 0x7E000FE3#32) = 4094 ∧ toSigned (immB 0x000000E3#32) = 2048 ∧
    toSigned (immB 0x00000F63#32) = 30 ∧ toSigned (immB 0x00208863#32) = 16 ∧
    toSigned (immB 0xFE209CE3#32) = -8 := by decide
theorem test_immediates_j :
    toSigned (immJ 0x8000006F#32) = -1048576 ∧ toSigned (immJ 0x7FFFF06F#32) = 1048574 ∧
    toSigned (immJ 0x0010006F#32) = 2048 ∧ toSigned (immJ 0x000FF06F#32) = 1044480 ∧
    toSigned (immJ 0x7FE0006F#32) = 2046 ∧ toSigned (immJ 0x010000EF#32) = 16 ∧
    toSigned (immJ 0xFF9FF06F#32) = -8 := by decide

/-! ## One step -/

/-- The test configuration TC of 95_test_vectors.md section 0, in the Full profile (R7). -/
def tc : Config where
  memStart              := 0x00000100#32
  memSize               := 8
  stackEnabled          := true
  stackBase             := 0x00000200#32
  stackSize             := 8
  alignCheck            := false
  spInit                := 0x0000021C#32
  haltSentinel          := 0x00000063#32
  invalidOpcodePolicy   := .nop
  x0Hardwired           := false
  jalrLinkFirst         := false
  misalignedFetchPolicy := .fault
  maxSteps              := none

/-- A state at `pc` with these registers set, an empty program store, and a configuration. -/
def at_ (c : Config) (pc : Word) (regs : List (Reg × Word)) : State :=
  regs.foldl (fun s r => s.writeReg r.1 r.2) ((State.resetWith c []).setPc pc)

/-- What a step of one word answers, read by `f`. -/
def after {α : Type} (f : State → α) (s : State) (w : Nat) : Option α :=
  match step (s.withFetchWord 32 w) with
  | .next t => some (f t)
  | .fault _ => none
  | .refused _ => none

/-- A register after a step of one word. -/
def regAfter (r : Reg) : State → Nat → Option Word := after (·.readReg r)

/-- The pc after a step of one word. -/
def pcAfter : State → Nat → Option Word := after (·.pc)

/-- The state the R-type vectors of L2.1 start from: x3 = 0xDEADBEEF, and x1 and x2 given. -/
def two (a b : Word) : State := at_ tc 0#32 [(3#5, 0xDEADBEEF#32), (1#5, a), (2#5, b)]

-- L2.1
theorem test_add : regAfter 3#5 (two 5#32 7#32) 0x002081B3 = some 0x0000000C#32 ∧
    regAfter 3#5 (two 0x7FFFFFFF#32 1#32) 0x002081B3 = some 0x80000000#32 := by decide
theorem test_add_alias_and_x0 : regAfter 1#5 (two 0x40000000#32 0#32) 0x001080B3 = some 0x80000000#32 ∧
    regAfter 0#5 (two 3#32 0#32) 0x00108033 = some 6#32 := by decide
theorem test_sub : regAfter 3#5 (two 5#32 7#32) 0x402081B3 = some 0xFFFFFFFE#32 ∧
    regAfter 3#5 (two 6#32 7#32) 0x022081B3 = some 0xFFFFFFFF#32 := by decide
theorem test_slt : regAfter 3#5 (two 0x80000000#32 0x7FFFFFFF#32) 0x0020A1B3 = some 1#32 ∧
    regAfter 3#5 (two 1#32 0xFFFFFFFF#32) 0x0020A1B3 = some 0#32 ∧
    regAfter 3#5 (two 4#32 4#32) 0x4020A1B3 = some 0#32 := by decide
theorem test_sra : regAfter 3#5 (two 0x80000000#32 4#32) 0x4020D1B3 = some 0xF8000000#32 ∧
    regAfter 3#5 (two 0x00000100#32 33#32) 0x4020D1B3 = some 0x00000080#32 := by decide
theorem test_sra_edges : regAfter 3#5 (two 0x80000001#32 32#32) 0x4020D1B3 = some 0x80000001#32 ∧
    regAfter 3#5 (two 0x80000000#32 0xFFFFFFFF#32) 0x4020D1B3 = some 0xFFFFFFFF#32 ∧
    regAfter 3#5 (two 0xF0000000#32 4#32) 0x0020D1B3 = some 0xFF000000#32 := by decide
theorem test_or : regAfter 3#5 (two 0xF0F0F0F0#32 0x0FF00FF0#32) 0x0020E1B3 = some 0xFFF0FFF0#32 := by decide
theorem test_and : regAfter 3#5 (two 0xF0F0F0F0#32 0x0FF00FF0#32) 0x0020F1B3 = some 0x00F000F0#32 := by decide
theorem test_rzero001 : regAfter 3#5 (two 1#32 2#32) 0x002091B3 = some 0#32 := by decide
theorem test_rzero011 : regAfter 3#5 (two 1#32 2#32) 0x0020B1B3 = some 0#32 := by decide
theorem test_rzero100 : regAfter 3#5 (two 1#32 2#32) 0x0020C1B3 = some 0#32 ∧
    regAfter 1#5 (two 0x12345678#32 5#32) 0x0020C0B3 = some 0#32 := by decide

-- L2.2
theorem test_addi : regAfter 1#5 (two 5#32 0#32) 0xFFF08093 = some 4#32 ∧
    regAfter 1#5 (at_ tc 0#32 []) 0x80000093 = some 0xFFFFF800#32 ∧
    regAfter 1#5 (two 0x7FFFFFFF#32 0#32) 0x00108093 = some 0x80000000#32 := by decide
theorem test_addi_other_funct3_and_x0 : regAfter 1#5 (two 5#32 0#32) 0xFFF0C093 = some 4#32 ∧
    regAfter 1#5 (two 5#32 0#32) 0x00309093 = some 8#32 ∧ regAfter 0#5 (at_ tc 0#32 []) 0x00500013 = some 5#32 := by decide

/-- The memory of L2.3. -/
def mem23 (c : Config) (regs : List (Reg × Word)) : State :=
  ((at_ c 0#32 regs).setDataMem [(0, 0x11111111#32), (1, 0x22222222#32), (7, 0x88888888#32)]).setStackMem
    (if c.stackEnabled then [(0, 0xAAAAAAAA#32), (7, 0xBBBBBBBB#32)] else [])

-- L2.3
theorem test_lw_full : regAfter 5#5 (mem23 tc [(1#5, 0x100#32)]) 0x0050A283 = some 0x22222222#32 ∧
    regAfter 5#5 (mem23 tc []) 0x00012283 = some 0xBBBBBBBB#32 ∧
    regAfter 5#5 (mem23 tc [(1#5, 0x100#32), (5#5, 9#32)]) 0x0200A283 = some 0#32 := by decide
theorem test_lw_reduced : regAfter 5#5 (mem23 tc.reduced [(1#5, 0x100#32), (5#5, 9#32)]) 0x0050A283 = some 0#32 ∧
    regAfter 5#5 (mem23 tc.reduced [(5#5, 9#32)]) 0x00012283 = some 0#32 ∧
    regAfter 5#5 (mem23 tc.reduced [(1#5, 0x100#32)]) 0x01C0A283 = some 0x88888888#32 := by decide

-- L2.4
theorem test_jalr : pcAfter (at_ tc 8#32 [(1#5, 0x101#32)]) 0x000080E7 = some 0x00000100#32 ∧
    regAfter 1#5 (at_ tc 8#32 [(1#5, 0x101#32)]) 0x000080E7 = some 0x0000000C#32 ∧
    pcAfter (at_ tc 8#32 [(5#5, 0x20#32)]) 0xFFF281E7 = some 0x0000001E#32 := by decide
theorem test_jalr_link_first_and_no_link :
    pcAfter (at_ { tc with jalrLinkFirst := true } 8#32 [(1#5, 0x101#32)]) 0x000080E7 = some 0x0000000C#32 ∧
    regAfter 0#5 (at_ tc 8#32 [(5#5, 0x20#32)]) 0x00428067 = some 0#32 ∧
    pcAfter (at_ tc 8#32 [(5#5, 0x7FFFFFFF#32)]) 0x7FF281E7 = some 0x800007FE#32 := by decide

-- L2.5
theorem test_sw_full :
    after (·.dataMem) (at_ tc 0#32 [(1#5, 0x100#32), (5#5, 0xCAFEF00D#32)]) 0x0050A323 = some [(1, 0xCAFEF00D#32)] ∧
    after (·.stackMem) (at_ tc 0#32 [(5#5, 0xCAFEF00D#32)]) 0xFE512E23 = some [(6, 0xCAFEF00D#32)] ∧
    pcAfter (at_ tc 0#32 []) 0xFE512E23 = some 4#32 := by decide
theorem test_sw_reduced :
    after (·.dataMem) (at_ tc.reduced 0#32 [(1#5, 0x100#32), (5#5, 0xCAFEF00D#32)]) 0x0050A323 = some [] ∧
    after (·.stackMem) (at_ tc.reduced 0#32 [(5#5, 0xCAFEF00D#32)]) 0xFE512E23 = some [] ∧
    after (·.dataMem) (at_ tc.reduced 0#32 [(1#5, 0x104#32)]) 0x0010A023 = some [(1, 0x104#32)] := by decide

-- L2.6
theorem test_beq : pcAfter (at_ tc 8#32 [(1#5, 3#32), (2#5, 3#32)]) 0x00208863 = some 0x18#32 ∧
    pcAfter (at_ tc 8#32 [(1#5, 3#32), (2#5, 4#32)]) 0x00208863 = some 0xC#32 := by decide
theorem test_beq_bounds : pcAfter (at_ tc 8#32 []) 0x80000063 = some 0xFFFFF008#32 ∧
    pcAfter (at_ tc 8#32 []) 0x7E000FE3 = some 0x00001006#32 ∧
    pcAfter (at_ { tc with haltSentinel := 0xFFFFFFFF#32 } 8#32 []) 0x00000063 = some 8#32 := by decide
theorem test_bne : pcAfter (at_ tc 8#32 [(1#5, 3#32), (2#5, 4#32)]) 0xFE209CE3 = some 0#32 ∧
    pcAfter (at_ tc 8#32 [(1#5, 3#32), (2#5, 3#32)]) 0xFE209CE3 = some 0xC#32 := by decide
theorem test_bnop010 : pcAfter (at_ tc 8#32 [(1#5, 5#32), (2#5, 5#32)]) 0x0020A463 = some 0xC#32 := by decide
theorem test_bnop011 : pcAfter (at_ tc 8#32 [(1#5, 5#32), (2#5, 4#32)]) 0x0020B463 = some 0xC#32 := by decide
theorem test_bnop100 : pcAfter (at_ tc 8#32 [(1#5, 0xFFFFFFFF#32), (2#5, 1#32)]) 0x0020C463 = some 0xC#32 := by decide
theorem test_bnop101 : pcAfter (at_ tc 8#32 [(1#5, 5#32), (2#5, 1#32)]) 0x0020D463 = some 0xC#32 := by decide
theorem test_bnop110 : pcAfter (at_ tc 8#32 [(1#5, 1#32), (2#5, 5#32)]) 0x0020E463 = some 0xC#32 := by decide
theorem test_bnop111 : pcAfter (at_ tc 8#32 [(1#5, 5#32), (2#5, 1#32)]) 0x0020F463 = some 0xC#32 := by decide

-- L2.7
theorem test_jal : pcAfter (at_ tc 8#32 []) 0x010000EF = some 0x18#32 ∧
    regAfter 1#5 (at_ tc 8#32 []) 0x010000EF = some 0xC#32 ∧ regAfter 0#5 (at_ tc 8#32 []) 0xFF9FF06F = some 0#32 := by decide
theorem test_jal_bounds : pcAfter (at_ tc 8#32 []) 0x7FFFF0EF = some 0x00100006#32 ∧
    pcAfter (at_ tc 8#32 []) 0x800000EF = some 0xFFF00008#32 ∧
    pcAfter (at_ tc 8#32 []) 0x001002EF = some 0x00000808#32 := by decide

-- L2.8
theorem test_halt : after (fun t => (t.status, t.pc, t.trace.map (·.pc))) (at_ tc 8#32 []) 0x00000063
    = some (.halted, 8#32, [8#32]) := by decide
theorem test_invalid_nop : after (fun t => (t.status, t.pc, t.readReg 1#5, t.trace.map (·.pc))) (at_ tc 0#32 []) 0x123450B7
    = some (.running, 4#32, 0#32, [4#32]) := by decide
theorem test_invalid_decode_error :
    after (fun t => (t.status, t.pc, t.trace)) (at_ { tc with invalidOpcodePolicy := .decodeError } 0#32 []) 0x123450B7
    = some (.refusedDecodeError, 0#32, []) := by decide

/-- A state that runs a program from reset. -/
def load (c : Config) (p : List Word) : State := State.resetWith c p

/-- What a step answers, read by `f`. -/
def stepped {α : Type} (f : State → α) (s : State) : Option α :=
  match step s with
  | .next t => some (f t)
  | .fault _ => none
  | .refused _ => none

theorem test_ended : stepped (fun t => (t.status, t.trace)) (load tc []) = some (.ended, []) ∧
    stepped (·.status) ((load tc [0x00100093#32]).setPc 4#32) = some .ended ∧
    stepped (·.status) ((load tc [0x00100093#32]).setPc 0xFFFFFFFC#32) = some .ended ∧
    stepped (·.status) ((load tc [0x00100093#32]).setPc 6#32) = some .ended := by decide
theorem test_fetch_misaligned : stepped (fun t => (t.status, t.pc, t.trace)) ((load tc [0x00100093#32]).setPc 2#32)
      = some (.faultedFetchMisaligned, 2#32, []) ∧
    stepped (fun t => (t.status, t.pc, t.readReg 1#5))
      ((load { tc with misalignedFetchPolicy := .truncate } [0x00100093#32]).setPc 2#32)
      = some (.running, 6#32, 1#32) := by decide
theorem test_step_of_stopped_state : step ((load tc [0x00100093#32]).setStatus .halted) = .fault .notRunning := rfl
theorem test_x0_hardwired : regAfter 0#5 (at_ { tc with x0Hardwired := true } 0#32 [(1#5, 3#32)]) 0x00108033 = some 0#32 := by
  decide

-- The word the table numbers, and the first step after reset.
theorem test_decodeTableWord : decodeTableWord 32 0x002081B3 = some (.add 3#5 1#5 2#5) ∧ decodeTableWord 64 0 = none := by decide
theorem test_first_step_after_reset : after (fun t => (t.readReg 1#5, t.pc)) State.reset 0x06300093 = some (99#32, 4#32) := by
  decide

-- L3.5, R230, R231, and R224 to R226.
theorem test_halt_output : stepped (fun t => t.trace.map fun r => String.ofList ((traceLine r).take 36))
    (load tc [0x00000063#32]) = some ["0b00000000000000000000000000000000 0"] ∧
    stepped (fun t => t.trace.map fun r => String.ofList (binField (r.x[2]))) (load tc [0x00000063#32])
      = some ["0b00000000000000000000001000011100"] := by decide
theorem test_dump_line : String.ofList (dumpLine ((load tc []).setDataMem [(7, 0xFFFFFFD6#32)]) 7)
    = "0x0000011C:0b11111111111111111111111111010110\n" := by decide
theorem test_load : loadLines ["  00000000000000000000000001100011\r\n".toList, " \n".toList] = some [0x00000063#32] ∧
    (boot tc ["0101".toList]).status = .refusedDecodeError := by decide
theorem test_load_bit_order : loadLines ["10000000000000000000000000010011".toList] = some [0x80000013#32] := by decide

/-! ## Witnesses: states and operands that meet the hypotheses of each statement

Each is named after its statement. Words under a mask that differ from the sentinel (`WordsDecodeTo`) come first. -/

/-- A word that meets the hypotheses of `WordsDecodeTo mask value` under the default sentinel. -/
abbrev Witnesses (mask value w : Word) : Prop := w ≠ 0x00000063#32 ∧ w &&& mask = value

theorem test_witness_AddWritesSum : Witnesses 0xFE00707F#32 0x00000033#32 0x002081B3#32 := by decide
theorem test_witness_SubWritesDifference :
    Witnesses 0x0000707F#32 0x00000033#32 0x402081B3#32 ∧ (0x402081B3#32).extractLsb' 25 7 ≠ 0#7 ∧
    Witnesses 0x0000707F#32 0x00000033#32 0x022081B3#32 ∧ (0x022081B3#32).extractLsb' 25 7 ≠ 0#7 := by decide
theorem test_witness_SltWritesSignedComparison : Witnesses 0x0000707F#32 0x00002033#32 0x4020A1B3#32 := by decide
theorem test_witness_SraWritesSignExtendingShift : Witnesses 0x0000707F#32 0x00005033#32 0x4020D1B3#32 := by decide
theorem test_witness_OrWritesBitwiseOr : Witnesses 0x0000707F#32 0x00006033#32 0x0020E1B3#32 := by decide
theorem test_witness_AndWritesBitwiseAnd : Witnesses 0x0000707F#32 0x00007033#32 0x0020F1B3#32 := by decide
theorem test_witness_RzeroWritesZero :
    Witnesses 0x0000707F#32 0x00001033#32 0x002091B3#32 ∧ Witnesses 0x0000707F#32 0x00003033#32 0x0020B1B3#32 ∧
    Witnesses 0x0000707F#32 0x00004033#32 0x0020C1B3#32 ∧
    Instr.rzero100 0#7 3#5 1#5 2#5 ∈ [Instr.rzero001 0#7 3#5 1#5 2#5, .rzero011 0#7 3#5 1#5 2#5, .rzero100 0#7 3#5 1#5 2#5] := by
  decide
theorem test_witness_AddiWritesSum : Witnesses 0x0000007F#32 0x00000013#32 0xFFF0C093#32 := by decide
theorem test_witness_JalrLinksAndJumpsToRegister : Witnesses 0x0000007F#32 0x00000067#32 0x000080E7#32 := by decide
theorem test_witness_BeqBranchesIfEqual : Witnesses 0x0000707F#32 0x00000063#32 0x00208863#32 := by decide
theorem test_witness_BneBranchesIfNotEqual : Witnesses 0x0000707F#32 0x00001063#32 0xFE209CE3#32 := by decide
theorem test_witness_BnopFallsThrough :
    Witnesses 0x0000707F#32 0x00002063#32 0x0020A463#32 ∧ Witnesses 0x0000707F#32 0x00003063#32 0x0020B463#32 ∧
    Witnesses 0x0000707F#32 0x00004063#32 0x0020C463#32 ∧ Witnesses 0x0000707F#32 0x00005063#32 0x0020D463#32 ∧
    Witnesses 0x0000707F#32 0x00006063#32 0x0020E463#32 ∧ Witnesses 0x0000707F#32 0x00007063#32 0x0020F463#32 := by decide
theorem test_witness_JalLinksAndJumps : Witnesses 0x0000007F#32 0x0000006F#32 0x010000EF#32 := by decide

/-- LW's three clauses, at the first and the last byte address of each region and just outside. -/
theorem test_witness_LwWritesRoutedWord :
    Witnesses 0x0000007F#32 0x00000003#32 0x0040A283#32 ∧
    (0x200#32).toInt + (0#12).toInt = 0x200 ∧ route tc 0x200 = .stack 0 ∧ route tc 0x21F = .stack 7 ∧
    route tc 0x100 = .data 0 ∧ route tc 0x11F = .data 7 ∧
    route tc 0xFF = .unmapped ∧ route tc 0x120 = .unmapped ∧ route tc 0x1FF = .unmapped ∧ route tc 0x220 = .unmapped ∧
    route tc (-4) = .unmapped ∧ route tc.reduced 0x200 = .unmapped ∧ route tc.reduced 0x101 = .unmapped := by decide
theorem test_witness_SwStoresWord :
    Witnesses 0x0000007F#32 0x00000023#32 0x0050A423#32 ∧
    (mem23 tc []).dataMem.wf = true ∧ (mem23 tc []).stackMem.wf = true := by decide

theorem test_witness_CodecRoundTrips :
    (-2 ^ 31 ≤ (-2147483648 : Int) ∧ (-2147483648 : Int) < 2 ^ 31) ∧
    (-2 ^ 31 ≤ (2147483647 : Int) ∧ (2147483647 : Int) < 2 ^ 31) ∧
    (-2 ^ 11 ≤ (-2048 : Int) ∧ (2047 : Int) < 2 ^ 11) := by decide
theorem test_witness_IImmediateBits :
    dec 0x80002003#32 = .lw 2#3 0#5 0#5 0x800#12 ∧ dec 0x7FF00013#32 = .addi 0#3 0#5 0#5 0x7FF#12 ∧
    dec 0xFFF281E7#32 = .jalr 0#3 3#5 5#5 0xFFF#12 := by decide
theorem test_witness_SImmediateBits : dec 0xFE002FA3#32 = .sw 2#3 0#5 0#5 0xFFF#12 := by decide
theorem test_witness_BImmediateBits :
    dec 0x80000063#32 ∈ [Instr.beq 0#5 0#5 0x1000#13] ∧ dec 0x7E001FE3#32 ∈ [Instr.bne 0#5 0#5 0x0FFE#13] ∧
    dec 0x000020E3#32 ∈ [Instr.bnop010 0#5 0#5 2048#13] := by decide
theorem test_witness_JImmediateBits : dec 0x8000006F#32 = .jal 0#5 0x100000#21 ∧ dec 0x7FFFF06F#32 = .jal 0#5 0xFFFFE#21 := by
  decide
theorem test_witness_SentinelIsTestedFirst : (0xFFFFFFFF#32 : Word) ≠ 0x00000063#32 := by decide
theorem test_witness_DecodeOfEncode :
    (Instr.jal 1#5 0xFFFFE#21).WellFormed ∧ encode 0x00000063#32 (.jal 1#5 0xFFFFE#21) ≠ 0x00000063#32 ∧
    Instr.halt.WellFormed := by decide

/-- A program of one word at pc 0, ready to be fetched. -/
theorem test_witness_fetches (c : Config) (w : Word) : Fetches (load c [w]) w :=
  ⟨rfl, by simp [load, State.resetWith], Or.inl (by simp [load, State.resetWith])⟩

theorem test_witness_HaltStopsAndRecordsItself : Fetches (load tc [0x00000063#32]) (load tc [0x00000063#32]).cfg.haltSentinel :=
  test_witness_fetches tc _
theorem test_witness_InvalidIsNoOpUnderNopPolicy :
    (0x123450B7#32 : Word) ≠ tc.haltSentinel ∧ (0x123450B7#32).extractLsb' 0 7 ∉ tableOpcodes ∧ tc.invalidOpcodePolicy = .nop ∧
    Fetches (load tc [0x123450B7#32]) 0x123450B7#32 := ⟨by decide, by decide, rfl, test_witness_fetches tc _⟩
theorem test_witness_InvalidStopsUnderDecodeErrorPolicy :
    (0x123450B7#32 : Word) ≠ tc.haltSentinel ∧ (0x123450B7#32).extractLsb' 0 7 ∉ tableOpcodes ∧
    Fetches (load { tc with invalidOpcodePolicy := .decodeError } [0x123450B7#32]) 0x123450B7#32 :=
  ⟨by decide, by decide, test_witness_fetches _ _⟩

theorem test_witness_RegisterZeroIsOrdinaryUnlessHardwired :
    (load tc []).cfg.x0Hardwired = false ∧ (load { tc with x0Hardwired := true } []).cfg.x0Hardwired = true ∧
    (Instr.add 0#5 1#5 1#5, aluAdd ((load tc []).readReg 1#5) ((load tc []).readReg 1#5)) ∈
      [(Instr.add 0#5 1#5 1#5, aluAdd ((load tc []).readReg 1#5) ((load tc []).readReg 1#5))] ∧
    (∃ t, exec (.jalr 0#3 0#5 1#5 0#12) (load tc []) = .next t) ∧ ∃ t, exec (.jal 0#5 16#21) (load tc []) = .next t :=
  ⟨rfl, rfl, by decide, ⟨_, rfl⟩, ⟨_, rfl⟩⟩

/-- A word for each clause: writing, non-writing by opcode or sentinel, and a jump with rd = x0. -/
theorem test_witness_RegisterFilePorts :
    (∃ t, exec (dec 0x002081B3#32) (load tc []) = .next t) ∧ (0x0050A423#32).extractLsb' 0 7 = 0b0100011#7 ∧
    (0x00208863#32).extractLsb' 0 7 = 0b1100011#7 ∧ (0x123450B7#32).extractLsb' 0 7 ∉ tableOpcodes ∧
    (0xFF9FF06F#32).extractLsb' 0 7 = 0b1101111#7 ∧ (0xFF9FF06F#32).extractLsb' 7 5 = 0#5 ∧
    (0x00428067#32).extractLsb' 0 7 = 0b1100111#7 ∧ (0x00428067#32).extractLsb' 7 5 = 0#5 ∧
    3#5 ≠ (0x002081B3#32).extractLsb' 15 5 ∧ 3#5 ≠ (0x002081B3#32).extractLsb' 20 5 ∧
    (0x002081B3#32 : Word) ≠ 0x00000063#32 ∧ 3#5 = (0x002081B3#32).extractLsb' 7 5 ∧
    (0x002081B3#32).extractLsb' 0 7 ∈ [0b0110011#7, 0b0000011#7, 0b0010011#7] ∧
    1#5 = (0x010000EF#32).extractLsb' 7 5 ∧ 1#5 ≠ (0x010000EF#32).extractLsb' 15 5 ∧ 1#5 ≠ (0x010000EF#32).extractLsb' 20 5 ∧
    (0x010000EF#32).extractLsb' 0 7 ∈ [0b1101111#7, 0b1100111#7] ∧ 1#5 ≠ 0#5 := by
  refine ⟨⟨_, rfl⟩, ?_⟩
  decide

/-- A configuration whose stack lies over the last four data words. -/
def overlapping : Config := { tc with stackBase := 0x00000110#32 }

/-- At the first and the last data word under the overlap; data word 3 is outside it. -/
theorem test_witness_OverlapGoesToStack :
    overlapping.wf = true ∧ overlapping.stackEnabled = true ∧
    uint overlapping.stackBase ≤ uint overlapping.memStart + 4 * 4 ∧
    uint overlapping.memStart + 4 * 7 < uint overlapping.stackBase + 4 * 8 ∧
    route overlapping 0x110 = .stack 0 ∧ route overlapping 0x11F = .stack 3 ∧ route overlapping 0x10F = .data 3 ∧
    (overlapping.alignCheck = true → (0x111 : Int) % 4 = 0) ∧
    stepped (·.status) (load overlapping [0x00000013#32]) = some .running := by decide
theorem test_witness_EffectiveAddressIsExact :
    uint tc.memStart + 4 * tc.memSize ≤ 2 ^ 31 - 2 ^ 11 ∧ uint tc.stackBase + 4 * tc.stackSize ≤ 2 ^ 31 - 2 ^ 11 := by decide

/-- The same word, another word, and an unmapped address. -/
theorem test_witness_LoadReturnsLatestStore :
    (mem23 tc []).dataMem.wf = true ∧ (mem23 tc []).stackMem.wf = true ∧
    route tc (effAddr ((mem23 tc []).readReg 2#5) 0#12) = .stack 7 ∧
    route tc (effAddr ((mem23 tc []).readReg 2#5) 0xFFC#12) = .stack 6 ∧
    route tc (effAddr ((mem23 tc []).readReg 2#5) 4#12) = .unmapped := by decide
theorem test_witness_StoringTwiceIsStoringOnce : (mem23 tc []).dataMem.wf = true ∧ (mem23 tc []).stackMem.wf = true := by decide
theorem test_witness_CanonicalMemoriesAreEqual :
    Memory.wf [(0, 1#32), (7, 2#32)] = true ∧ Memory.wf [(0, 0#32)] = false ∧ Memory.wf [(7, 1#32), (0, 1#32)] = false := by decide

theorem test_witness_StepRunsDecodedInstruction : Fetches (load tc [0x002081B3#32]) 0x002081B3#32 := test_witness_fetches tc _
/-- Exactly at the end of the program, and a wrapped negative pc. -/
theorem test_witness_OutsideProgramEndsRun :
    (load tc [0x00000013#32]).status = .running ∧
    4 * (load tc [0x00000013#32]).program.length ≤ ((load tc [0x00000013#32]).setPc 4#32).pc.toNat ∧
    4 * (load tc [0x00000013#32]).program.length ≤ ((load tc [0x00000013#32]).setPc 0xFFFFFFFC#32).pc.toNat := by decide
theorem test_witness_MisalignedFetchFollowsPolicy :
    ((load tc [0x00000013#32]).setPc 2#32).status = .running ∧
    ((load tc [0x00000013#32]).setPc 2#32).pc.toNat < 4 * (load tc [0x00000013#32]).program.length ∧
    ((load tc [0x00000013#32]).setPc 2#32).pc.toNat % 4 ≠ 0 ∧ (2#32 : Word).getLsbD 0 = false ∧
    tc.misalignedFetchPolicy = .fault ∧ { tc with misalignedFetchPolicy := .truncate }.misalignedFetchPolicy = .truncate := by
  decide

/-- A step to each status, and a program of straight-line words. -/
theorem test_witness_ExecutedStepAppendsOneRecord :
    stepped (·.status) (load tc [0x00000013#32]) = some .running ∧
    stepped (·.status) (load tc [0x00000063#32]) = some .halted ∧ stepped (·.status) (load tc []) = some .ended ∧
    stepped (·.status) ((load tc [0x00000013#32]).setPc 2#32) = some .faultedFetchMisaligned ∧
    stepped (·.status) (load { tc with invalidOpcodePolicy := .decodeError } [0x123450B7#32]) = some .refusedDecodeError := by
  decide
theorem test_witness_straightLine :
    StraightLine tc 0x00100093#32 ∧ StraightLine tc 0x0020C463#32 ∧ StraightLine tc 0x123450B7#32 := by
  unfold StraightLine
  decide
theorem test_witness_straightLine_program :
    (load tc [0x00100093#32]).status = .running ∧ (load tc [0x00100093#32]).pc.toNat % 4 = 0 ∧
    (load tc [0x00100093#32]).pc.toNat ≤ 4 * (load tc [0x00100093#32]).program.length ∧
    (load tc [0x00100093#32]).program.length ≤ Config.maxProgLen ∧
    ∀ (i : Nat) (w : Word), (load tc [0x00100093#32]).pc.toNat / 4 ≤ i → (load tc [0x00100093#32]).program[i]? = some w →
      StraightLine (load tc [0x00100093#32]).cfg w := by
  refine ⟨rfl, rfl, by decide, by decide, fun i w _ h => ?_⟩
  cases i with
  | zero => cases h; exact test_witness_straightLine.1
  | succ i => simp [load, State.resetWith] at h

theorem test_witness_ExactlyRunningStatesStep :
    (load tc []).status = .running ∧ ((load tc []).setStatus .ended).status ≠ .running := by decide
/-- A halting step and a step that stops otherwise. -/
theorem test_witness_StopsArePrecise :
    (∃ t, step (load tc [0x00000063#32]) = .next t ∧ t.status = .halted ∧ t.status ≠ .running) ∧
    ∃ t, step (load tc []) = .next t ∧ t.status = .ended ∧ t.status ≠ .running :=
  ⟨⟨_, rfl, rfl, nofun⟩, ⟨_, rfl, rfl, nofun⟩⟩
/-- An SW routed to data word 0, with its other words and all stack words outside it; one routed to stack word 7; and a form
that is no SW. -/
theorem test_witness_StepMakesAtMostOneUpdate :
    (∃ t, step (load tc [0x10002023#32]) = .next t) ∧ (load tc [0x10002023#32]).fetched = .sw 2#3 0#5 0#5 0x100#12 ∧
    route tc (effAddr ((load tc []).readReg (rs1Of 0x10002023#32)) (immS 0x10002023#32)) = .data 0 ∧
    route tc (effAddr ((load tc []).readReg (rs1Of 0x00512023#32)) (immS 0x00512023#32)) = .stack 7 ∧
    (∃ t, step (load tc [0x002081B3#32]) = .next t) ∧
    ∀ f rs1 rs2 imm, (load tc [0x002081B3#32]).fetched ≠ .sw f rs1 rs2 imm :=
  ⟨⟨_, rfl⟩, by decide, by decide, by decide, ⟨_, rfl⟩, nofun⟩
theorem test_witness_ProgramStoreIsOutOfReach : ∃ t, step (load tc [0x00502023#32]) = .next t := ⟨_, rfl⟩

/-- The four forms with a negative target: JAL and BEQ from pc 8, BNE with different registers, JALR at an odd sum. -/
theorem test_witness_NegativeTargetEndsRun :
    (at_ tc 8#32 []).status = .running ∧ (at_ tc 8#32 []).program.length ≤ Config.maxProgLen ∧
    (∃ t, exec (.jal 1#5 0x100000#21) (at_ tc 8#32 []) = .next t) ∧ uint 8#32 + toSigned (0x100000#21) < 0 ∧
    uint 8#32 + toSigned (0x1000#13) < 0 ∧ (at_ tc 8#32 []).readReg 0#5 = (at_ tc 8#32 []).readReg 1#5 ∧
    (at_ tc 8#32 []).readReg 0#5 ≠ (at_ tc 8#32 []).readReg 2#5 ∧
    sint ((at_ tc 8#32 []).readReg 0#5) + toSigned (0xFFF#12) - (sint ((at_ tc 8#32 []).readReg 0#5) + toSigned (0xFFF#12)) % 2 < 0 := by
  refine ⟨by decide, by decide, ⟨_, rfl⟩, ?_⟩
  decide
theorem test_witness_SelfJumpRunsForever : Fetches (load tc [0x000000EF#32]) 0x000000EF#32 ∧
    decode (load tc [0x000000EF#32]).cfg.haltSentinel 0x000000EF#32 = .jal 1#5 0#21 := ⟨test_witness_fetches tc _, by decide⟩

/-- A state with the invariant, with both stores in use, that steps on. -/
theorem test_witness_InvariantIsKept :
    ((mem23 tc []).setProgram [0x002081B3#32]).Inv ∧ ∃ t, step ((mem23 tc []).setProgram [0x002081B3#32]) = .next t :=
  ⟨⟨by decide, by decide, by decide, by decide, by decide, by decide, nofun, by decide, nofun, nofun, nofun,
    nofun, nofun⟩, ⟨_, rfl⟩⟩
theorem test_witness_InvariantHoldsAtReset : tc.wf = true ∧ tc.reduced.wf = true ∧
    [0x00000063#32].length ≤ Config.maxProgLen ∧ ["0101".toList].length ≤ Config.maxProgLen := by decide

theorem test_witness_LinesLoadInOrder : ∃ p, loadLines ["00000000000000000000000001100011".toList, []] = some p :=
  ⟨[0x00000063#32], by decide⟩
theorem test_witness_MalformedLineRefusesRun : parseLine "0101".toList = .malformed ∧
    parseLine "0000000000000000000000000110001x".toList = .malformed := by decide
theorem test_witness_LinesAreTrimmed : (trimLine " 01\n".toList).head? = some '0' ∧ (trimLine " 01\n".toList).getLast? = some '1' := by
  decide
theorem test_witness_TraceLineHas33Fields : (0 : Nat) < 33 ∧ 32 < 33 ∧ 31 < 32 := by decide
/-- The first and the last data word. -/
theorem test_witness_DumpListsDataWords : (load tc []).cfg.wf = true ∧ 0 < tc.memSize ∧ 7 < tc.memSize := by decide
theorem test_witness_OutputFollowsNormalEnd :
    stepped (fun t => (t.status, t.trace.length)) (load tc [0x00000063#32]) = some (.halted, 1) ∧
    stepped (·.status) (load tc []) = some .ended ∧
    stepped (·.status) ((load tc [0x00000013#32]).setPc 2#32) = some .faultedFetchMisaligned := by decide
/-- No limit, a limit not reached, and a limit reached by a Running state. -/
theorem test_witness_StepLimitIsTheHosts :
    (load tc []).cfg.maxSteps = none ∧ (load tc []).trace.length < 1 ∧
    (load { tc with maxSteps := some 0 } []).cfg.maxSteps = some 0 ∧ (load tc []).status = .running ∧
    0 ≤ (load tc []).trace.length := by decide

end Sys2Proof.Tests
end

