-- ==== Sys2Proof/Proofs/Codec.lean ====
section
/-! The signed reading of fields and its round trips with `ToBinary` (00_scope.md R9 to R12). -/

namespace Sys2Proof.Machine

/-- R10: the leading bit of a field decides between the unsigned value and the same less 2^length. -/
theorem toSigned_eq_of_leading_bit (n : Nat) (f : BitVec (n + 1)) :
    toSigned f = if f.getLsbD n = true then (f.toNat : Int) - 2 ^ (n + 1) else (f.toNat : Int) := by
  have hmsb : f.msb = f.getLsbD n := BitVec.msb_eq_getLsbD_last f
  rw [toSigned, BitVec.toInt_eq_msb_cond, hmsb]
  push_cast
  rfl

/-- R12: an integer that fits in a field of `n + 1` bits is read back from its pattern. -/
theorem toSigned_toBinary (n : Nat) {v : Int} (hlo : -2 ^ n ≤ v) (hhi : v < 2 ^ n) :
    toSigned (toBinary (n + 1) v) = v :=
  BitVec.toInt_ofInt_eq_self n.succ_pos hlo hhi

/-- Settles O1: the 32-bit reading is the reading of a field of 31 + 1 bits. -/
theorem signedReadingOfFields : Obligations.SignedReadingOfFields :=
  ⟨toSigned_eq_of_leading_bit, toSigned_eq_of_leading_bit 31⟩

/-- Settles O2: the 32-bit law for integers is the one for fields of 31 + 1 bits. -/
theorem codecRoundTrips : Obligations.CodecRoundTrips :=
  ⟨fun _ => toSigned_toBinary 31, fun p => ⟨norm32_sint p, norm32_uint p⟩, fun n _ => toSigned_toBinary n⟩

end Sys2Proof.Machine
end

