-- ==== Sys2Proof/Proofs/DecodeWellFormed.lean ====
section
/-! The decoder answers HALT for the sentinel alone (30_encoding.md R64), and only well-formed instructions (R67 to R74). -/

namespace Sys2Proof

theorem selectR_wellFormed_ne_halt (w : Word) : (selectR w).WellFormed ∧ selectR w ≠ .halt := by
  unfold selectR
  split_ifs with h3 h7
  · exact ⟨rfl, nofun⟩
  · exact ⟨by simpa [Instr.WellFormed, Instr.wellFormed] using h7, nofun⟩
  all_goals exact ⟨rfl, nofun⟩

theorem selectI_wellFormed_ne_halt (w : Word) : (selectI w).WellFormed ∧ selectI w ≠ .halt := by
  unfold selectI
  split_ifs <;> exact ⟨rfl, nofun⟩

theorem selectB_wellFormed_ne_halt (w : Word) : (selectB w).WellFormed ∧ selectB w ≠ .halt := by
  have heven : (!(immB w).getLsbD 0) = true := by rw [immB_even]; rfl
  unfold selectB
  split_ifs <;> exact ⟨heven, nofun⟩

theorem selectJ_wellFormed_ne_halt (w : Word) : (selectJ w).WellFormed ∧ selectJ w ≠ .halt := by
  have heven : (!(immJ w).getLsbD 0) = true := by rw [immJ_even]; rfl
  exact ⟨heven, nofun⟩

/-- The classifier answers INVALID only for an opcode outside the table (R63, R73). -/
theorem not_mem_tableOpcodes_of_classify {op : BitVec 7} (h : classify op = .invalid) : op ∉ tableOpcodes := by
  unfold classify at h
  split_ifs at h
  simp [tableOpcodes, *]

/-- A word other than the sentinel decodes to a well-formed instruction other than HALT. -/
theorem decode_wellFormed_ne_halt {sentinel w : Word} (h : w ≠ sentinel) :
    (decode sentinel w).WellFormed ∧ decode sentinel w ≠ .halt := by
  rw [decode, if_neg h]
  split
  · exact selectR_wellFormed_ne_halt w
  · exact selectI_wellFormed_ne_halt w
  · exact ⟨rfl, nofun⟩
  · exact selectB_wellFormed_ne_halt w
  · exact selectJ_wellFormed_ne_halt w
  · next hc => exact ⟨by simpa [Instr.WellFormed, Instr.wellFormed, opcodeOf] using not_mem_tableOpcodes_of_classify hc, nofun⟩

theorem decode_sentinel (sentinel : Word) : decode sentinel sentinel = .halt := if_pos rfl

theorem decode_wellFormed (sentinel w : Word) : (decode sentinel w).WellFormed := by
  by_cases h : w = sentinel
  · rw [h, decode_sentinel]
    rfl
  · exact (decode_wellFormed_ne_halt h).1

theorem decode_eq_halt_iff {sentinel w : Word} : decode sentinel w = .halt ↔ w = sentinel :=
  ⟨fun h => by_contra fun hne => (decode_wellFormed_ne_halt hne).2 h, fun h => h ▸ decode_sentinel w⟩

end Sys2Proof
end

