-- ==== Sys2Proof/Proofs/Effect.lean ====
section
/-! Everything an instruction can do to the state: at most one write and a move of the pc to an even address, or a stop
(10_state.md R23, R28; 40_step.md R84, R88). -/

namespace Sys2Proof.Machine

/-! ## Even addresses (R28) -/

theorem even_add {a b : Word} (ha : a.getLsbD 0 = false) (hb : b.getLsbD 0 = false) : (a + b).getLsbD 0 = false := by
  rw [BitVec.getLsbD_add (by decide), ha, hb, BitVec.carry_zero]
  rfl

theorem even_signExtend {n : Nat} {f : BitVec (n + 1)} (h : f.getLsbD 0 = false) :
    (f.signExtend 32).getLsbD 0 = false := by
  rw [BitVec.getLsbD_signExtend, if_pos n.succ_pos, h, Bool.and_false]

theorem State.pcPlus_four_even {s : State} (h : s.pc.getLsbD 0 = false) : (s.pcPlus 4).getLsbD 0 = false := by
  rw [State.pcPlus_four]
  exact even_add h rfl

theorem State.branchTarget_even {s : State} (h : s.pc.getLsbD 0 = false) {taken : Bool} {imm : BitVec 13}
    (himm : taken = true → imm.getLsbD 0 = false) : (s.branchTarget taken imm).getLsbD 0 = false := by
  rw [State.branchTarget_eq]
  cases taken with
  | false => exact even_add h (b := 4#32) rfl
  | true => exact even_add h (even_signExtend (himm rfl))

theorem State.jalTarget_even {s : State} (h : s.pc.getLsbD 0 = false) {imm : BitVec 21}
    (himm : imm.getLsbD 0 = false) : (s.jalTarget imm).getLsbD 0 = false := by
  rw [State.jalTarget_eq]
  exact even_add h (even_signExtend himm)

theorem jalrTarget_even (base : Word) (imm : BitVec 12) : (jalrTarget base imm).getLsbD 0 = false := by
  simp [jalrTarget_eq]

/-! ## At most one write, and a move of the pc -/

/-- The second state is the first after at most one write to a register or to memory. -/
inductive State.OneWrite (s : State) : State → Prop
  | nothing : OneWrite s s
  | register (r : Reg) (v : Word) : OneWrite s (s.writeReg r v)
  | memory (ea : Int) (v : Word) : OneWrite s (s.memWrite ea v)

theorem State.oneWrite_writeLink (s : State) (rd : Reg) (v : Word) : s.OneWrite (s.writeLink rd v) := by
  unfold State.writeLink
  split
  · exact .nothing
  · exact .register rd v

/-- The run goes on: at most one write, and the pc moves to an even address. -/
def State.Proceeds (s t : State) : Prop := ∃ u pc, s.OneWrite u ∧ pc.getLsbD 0 = false ∧ t = u.setPc pc

theorem State.OneWrite.advance_proceeds {s u : State} (hu : s.OneWrite u) (h : s.pc.getLsbD 0 = false) :
    s.Proceeds u.advance := by
  have hpc : u.pc = s.pc := by cases hu <;> simp
  exact ⟨u, _, hu, State.pcPlus_four_even (hpc ▸ h), rfl⟩

theorem State.finish_proceeds {s t : State} {rd : Reg} {v : Word} (h : s.finish rd v = .next t)
    (heven : s.pc.getLsbD 0 = false) : s.Proceeds t := by
  cases h
  exact (State.OneWrite.register rd v).advance_proceeds heven

theorem State.branch_proceeds {s t : State} {taken : Bool} {imm : BitVec 13} (h : s.branch taken imm = .next t)
    (heven : s.pc.getLsbD 0 = false) (himm : taken = true → imm.getLsbD 0 = false) : s.Proceeds t := by
  cases h
  exact ⟨s, _, .nothing, State.branchTarget_even heven himm, rfl⟩

/-- Every instruction proceeds, but for HALT and for INVALID under the DecodeError policy, which only stop. -/
theorem exec_proceeds_or_stops {i : Instr} {s t : State} (hi : i.WellFormed) (heven : s.pc.getLsbD 0 = false)
    (h : exec i s = .next t) :
    s.Proceeds t ∨ (i = .halt ∧ t = s.stop .halted) ∨ t = s.stop .refusedDecodeError := by
  cases i with
  | halt =>
    cases h
    exact .inr (.inl ⟨rfl, rfl⟩)
  | invalid w =>
    simp only [exec, execInvalid] at h
    split at h <;> cases h
    · exact .inl (State.OneWrite.nothing.advance_proceeds heven)
    · exact .inr (.inr rfl)
  | add | sub | slt | sra | orReg | andReg | rzero001 | rzero011 | rzero100 | lw | addi =>
    exact .inl (State.finish_proceeds h heven)
  | sw =>
    cases h
    exact .inl ((State.OneWrite.memory _ _).advance_proceeds heven)
  | beq _ _ imm | bne _ _ imm =>
    exact .inl (State.branch_proceeds h heven fun _ => by simpa [Instr.WellFormed, Instr.wellFormed] using hi)
  | bnop010 | bnop011 | bnop100 | bnop101 | bnop110 | bnop111 =>
    exact .inl (State.branch_proceeds h heven nofun)
  | jal rd imm =>
    cases h
    have himm : imm.getLsbD 0 = false := by simpa [Instr.WellFormed, Instr.wellFormed] using hi
    exact .inl ⟨_, _, s.oneWrite_writeLink rd _, State.jalTarget_even heven himm, rfl⟩
  | jalr _ rd _ imm =>
    cases h
    exact .inl ⟨_, _, s.oneWrite_writeLink rd _, jalrTarget_even _ imm, rfl⟩

end Sys2Proof.Machine
end

