-- ==== Sys2Proof/Proofs/Invariant.lean ====
section
/-! Every step keeps the invariant. A step that goes on moves the pc and registers away from the last trace record and then
appends a new one, so what holds between the two is stated apart (`State.ContentsInv`). -/

namespace Sys2Proof.Machine

/-- The clauses of `State.Inv` on what the run holds: configuration, program, both stores and registers. They do not read
the pc, the status or the trace. -/
structure State.ContentsInv (s : State) : Prop where
  cfg_wf : s.cfg.wf = true
  prog_len : s.program.length ≤ Config.maxProgLen
  data_wf : s.dataMem.wf = true
  data_below : s.dataMem.below s.cfg.memSize = true
  stack_wf : s.stackMem.wf = true
  stack_below : s.stackMem.below s.cfg.stackSize = true
  stack_off : s.cfg.stackEnabled = false → s.stackMem = []
  x0_pinned : s.cfg.x0Hardwired = true → s.x[0] = 0#32

theorem State.Inv.contents {s : State} (h : s.Inv) : s.ContentsInv := { h with }

/-! ## Writes keep the contents sound -/

/-- A pinned x0 is not written (R21). -/
theorem State.writeReg_x0_of_hardwired {s : State} (h : s.cfg.x0Hardwired = true) (r : Reg) (v : Word) :
    (s.writeReg r v).x[0] = s.x[0] := by
  unfold State.writeReg
  split
  · rfl
  · next hp =>
    have hr : r.toNat ≠ 0 := fun h0 => hp ⟨h, BitVec.eq_of_toNat_eq h0⟩
    exact Vector.getElem_set_ne r.isLt _ hr

/-- With the stack off no address leads to stack memory (R33). -/
theorem State.memWrite_stackMem_of_stack_off {s : State} (h : s.cfg.stackEnabled = false) (ea : Int) (v : Word) :
    (s.memWrite ea v).stackMem = s.stackMem := by
  unfold State.memWrite
  split
  · next i hroute =>
    obtain ⟨-, hon, -⟩ := route_stack hroute
    exact absurd hon (by simp [h])
  · rfl
  · rfl

theorem State.ContentsInv.writeReg {s : State} (h : s.ContentsInv) (r : Reg) (v : Word) :
    (s.writeReg r v).ContentsInv where
  cfg_wf := by simpa using h.cfg_wf
  prog_len := by simpa using h.prog_len
  data_wf := by simpa using h.data_wf
  data_below := by simpa using h.data_below
  stack_wf := by simpa using h.stack_wf
  stack_below := by simpa using h.stack_below
  stack_off := by simpa using h.stack_off
  x0_pinned := by
    rw [State.writeReg_cfg]
    exact fun hx => (State.writeReg_x0_of_hardwired hx r v).trans (h.x0_pinned hx)

theorem State.ContentsInv.memWrite {s : State} (h : s.ContentsInv) (ea : Int) (v : Word) :
    (s.memWrite ea v).ContentsInv := by
  obtain ⟨hd, hs, hdb, hsb⟩ := State.memWrite_keeps_canonical ea v h.data_wf h.stack_wf h.data_below h.stack_below
  exact
    { cfg_wf := by simpa using h.cfg_wf
      prog_len := by simpa using h.prog_len
      data_wf := hd
      data_below := by simpa using hdb
      stack_wf := hs
      stack_below := by simpa using hsb
      stack_off := by
        rw [State.memWrite_cfg]
        exact fun hoff => (State.memWrite_stackMem_of_stack_off hoff ea v).trans (h.stack_off hoff)
      x0_pinned := by simpa using h.x0_pinned }

theorem State.ContentsInv.setPc {s : State} (h : s.ContentsInv) (pc : Word) : (s.setPc pc).ContentsInv := { h with }

theorem State.ContentsInv.oneWrite {s u : State} (h : s.ContentsInv) (hu : s.OneWrite u) : u.ContentsInv := by
  cases hu with
  | nothing => exact h
  | register r v => exact h.writeReg r v
  | memory ea v => exact h.memWrite ea v

/-! ## The trace record and the stops -/

/-- The appended record shows the pc and the registers, whatever the trace held before (R86). -/
theorem State.record_trace_current (s : State) (r : TraceRecord) (h : s.record.trace.getLast? = some r) :
    r = ⟨s.pc, s.visibleRegs⟩ := by
  simpa [eq_comm] using h

theorem State.Inv.record {s : State} (h : s.Inv) : s.record.Inv :=
  { h with trace_current := s.record_trace_current }

/-- Sound contents of a Running state with an even pc: the record makes up the rest of the invariant. -/
theorem State.ContentsInv.inv_record {s : State} (h : s.ContentsInv) (hrun : s.status = .running)
    (heven : s.pc.getLsbD 0 = false) : s.record.Inv :=
  { h with
    pc_even := heven
    trace_current := s.record_trace_current
    ended_outside := by simp [hrun]
    faulted_at := by simp [hrun]
    halted_at := by simp [hrun] }

/-- A stop keeps the invariant where the pc is as the new status says. -/
theorem State.Inv.stop {s : State} (h : s.Inv) {st : Status}
    (hended : st = .ended → s.outsideProgram)
    (hfaulted : st = .faultedFetchMisaligned → ¬s.outsideProgram ∧ s.fetchFaults)
    (hhalted : st = .halted → s.program[s.pc.toNat / 4]? = some s.cfg.haltSentinel) : (s.stop st).Inv :=
  { h with
    ended_outside := hended
    faulted_at := fun hst => by
      obtain ⟨hin, hlow, hpol⟩ := hfaulted hst
      have heven : s.pc.toNat % 2 = 0 := by simpa [BitVec.getLsbD, Nat.testBit_zero] using h.pc_even
      have hmod : s.pc.toNat % 4 ≠ 0 := mt (lowBits_zero_iff s.pc).mpr hlow
      exact ⟨not_le.mp hin, show s.pc.toNat % 4 = 2 by omega, hpol⟩
    halted_at := hhalted }

/-! ## The step -/

theorem State.Proceeds.inv_recordExecuted {s t : State} (ht : s.Proceeds t) (hs : s.Inv) (hrun : s.status = .running) :
    t.recordExecuted.Inv := by
  obtain ⟨u, pc, hu, heven, rfl⟩ := ht
  have hstatus : (u.setPc pc).status = .running := by cases hu <;> simpa using hrun
  obtain ⟨-, hrec⟩ | ⟨⟨hne, -⟩, -⟩ := (u.setPc pc).recordExecuted_cases
  · rw [hrec]
    exact ((hs.contents.oneWrite hu).setPc pc).inv_record hstatus heven
  · exact absurd hstatus hne

/-- An executed instruction and its trace record keep the invariant. -/
theorem State.Inv.exec_recordExecuted {s t : State} (hs : s.Inv) (hf : Fetches s s.fetchWord)
    (h : exec s.fetched s = .next t) : t.recordExecuted.Inv := by
  obtain ⟨hrun, hword, -⟩ := hf
  obtain ht | ⟨hhalt, rfl⟩ | rfl := exec_proceeds_or_stops (decode_wellFormed _ _) hs.pc_even h
  · exact ht.inv_recordExecuted hs hrun
  · have hsentinel : s.fetchWord = s.cfg.haltSentinel := decode_eq_halt_iff.mp hhalt
    exact (hs.stop (st := .halted) nofun nofun fun _ => hsentinel ▸ hword).record
  · exact hs.stop nofun nofun nofun

/-- Settles O48, along the three things a step can do (`step_cases`). -/
theorem invariantIsKept : Obligations.InvariantIsKept := by
  intro s t hs h
  obtain ⟨-, ⟨hout, rfl⟩ | ⟨hin, hfault, rfl⟩ | ⟨hfetch, u, hu, rfl⟩⟩ := step_cases h
  · exact hs.stop (fun _ => hout) nofun nofun
  · exact hs.stop nofun (fun _ => ⟨hin, hfault⟩) nofun
  · exact hs.exec_recordExecuted hfetch hu

end Sys2Proof.Machine
end

