-- ==== Sys2Proof/Proofs/CanonicalMemory.lean ====
section
/-! The canonical form of a word store: equal contents are equal lists (10_state.md R32; 70_reset_and_hazards.md R223). -/

namespace Sys2Proof.Machine

namespace Memory

theorem sortedFrom_cons {lo k : Nat} {v : Word} {m : Memory} :
    Memory.sortedFrom lo ((k, v) :: m) = true ↔ lo ≤ k ∧ v ≠ 0#32 ∧ m.sortedFrom (k + 1) = true := by
  simp [sortedFrom, and_assoc]

theorem read_head (k : Nat) (v : Word) (m : Memory) : Memory.read ((k, v) :: m) k = v := if_pos rfl

/-- Of two canonical stores that read alike, the second starts at or before the first: below its first index a store reads
0, and the first store's first word is not 0. -/
theorem first_le_of_read_eq {lo k k' : Nat} {v v' : Word} {m m' : Memory}
    (h : Memory.sortedFrom lo ((k, v) :: m) = true) (h' : Memory.sortedFrom lo ((k', v') :: m') = true)
    (hread : ∀ i, Memory.read ((k, v) :: m) i = Memory.read ((k', v') :: m') i) : k' ≤ k := by
  by_contra hlt
  obtain ⟨-, hv, -⟩ := sortedFrom_cons.mp h
  obtain ⟨-, hv', hm'⟩ := sortedFrom_cons.mp h'
  have hfrom : Memory.sortedFrom k' ((k', v') :: m') = true := sortedFrom_cons.mpr ⟨le_rfl, hv', hm'⟩
  have hzero : v = 0#32 := by
    rw [← read_head k v m, hread]
    exact read_below_lo hfrom (not_le.mp hlt)
  exact hv hzero

/-- Tails of canonical stores with the same first entry read alike where the stores do. -/
theorem tail_read_eq {k : Nat} {v : Word} {m m' : Memory} (h : m.sortedFrom (k + 1) = true)
    (h' : m'.sortedFrom (k + 1) = true)
    (hread : ∀ i, Memory.read ((k, v) :: m) i = Memory.read ((k, v) :: m') i) (i : Nat) : m.read i = m'.read i := by
  by_cases hi : k = i
  · rw [read_below_lo h (by omega), read_below_lo h' (by omega)]
  · simpa [read, hi] using hread i

/-- A canonical store with a listed word does not read as the empty one. -/
theorem not_read_eq_zero {lo k : Nat} {v : Word} {m : Memory} (h : Memory.sortedFrom lo ((k, v) :: m) = true) :
    ¬∀ i, Memory.read ((k, v) :: m) i = 0#32 := by
  obtain ⟨-, hv, -⟩ := sortedFrom_cons.mp h
  intro hread
  exact hv ((read_head k v m).symm.trans (hread k))

theorem eq_of_read_eq {lo : Nat} {m m' : Memory} (h : m.sortedFrom lo = true) (h' : m'.sortedFrom lo = true)
    (hread : ∀ i, m.read i = m'.read i) : m = m' := by
  induction m generalizing lo m' with
  | nil =>
    cases m' with
    | nil => rfl
    | cons c' m' => exact absurd (fun i => (hread i).symm) (not_read_eq_zero h')
  | cons c m ih =>
    cases m' with
    | nil => exact absurd hread (not_read_eq_zero h)
    | cons c' m' =>
      obtain ⟨k, v⟩ := c
      obtain ⟨k', v'⟩ := c'
      have hk : k = k' := le_antisymm (first_le_of_read_eq h' h fun i => (hread i).symm) (first_le_of_read_eq h h' hread)
      subst hk
      have hv : v = v' := by simpa [read_head] using hread k
      subst hv
      obtain ⟨-, -, hm⟩ := sortedFrom_cons.mp h
      obtain ⟨-, -, hm'⟩ := sortedFrom_cons.mp h'
      rw [ih hm hm' (tail_read_eq hm hm' hread)]

end Memory

/-- Settles O37: both stores are canonical from index 0. -/
theorem canonicalMemoriesAreEqual : Obligations.CanonicalMemoriesAreEqual :=
  fun _ _ => Memory.eq_of_read_eq

end Sys2Proof.Machine
end

