-- ==== Sys2Proof/Proofs/Meanings.lean ====
section
/-! The shared endings of the instructions' meanings as plain updates of the state, what x0 takes (10_state.md R21), and
where JALR's base comes from (R24, 42_i_type.md R122). -/

namespace Sys2Proof.Machine

namespace State

@[simp] theorem readReg_writeReg_same (s : State) (r : Reg) (v : Word) (h : ¬regPinned s.cfg r) :
    (s.writeReg r v).readReg r = v := by
  rw [readReg_writeReg, if_pos rfl, if_neg h]

theorem writeReg_of_pinned {s : State} {r : Reg} (h : regPinned s.cfg r) (v : Word) : s.writeReg r v = s := if_pos h

theorem readReg_of_pinned {s : State} {r : Reg} (h : regPinned s.cfg r) : s.readReg r = 0#32 := if_pos h

theorem writeLink_zero (s : State) (v : Word) : s.writeLink 0#5 v = s := if_pos rfl

theorem finish_eq (s : State) (rd : Reg) (v : Word) :
    s.finish rd v = .next ((s.writeReg rd v).setPc (s.pc + 4#32)) := by
  rw [finish, advance, pcPlus_four, writeReg_pc]

/-- What JALR adds its immediate to: rs1 as it was, or the link value where `JalrLinkFirst` reads rd = rs1 after the link
write (R24, D5). -/
def jalrOperand (s : State) (rd rs1 : Reg) : Word :=
  if s.cfg.jalrLinkFirst = true ∧ rd ≠ 0#5 ∧ rd = rs1 then s.pc + 4#32 else s.readReg rs1

end State

theorem execJalr_eq (f : BitVec 3) (rd rs1 : Reg) (imm : BitVec 12) (s : State) :
    execJalr f rd rs1 imm s = .next ((s.writeLink rd s.linkValue).setPc (jalrTarget (s.jalrOperand rd rs1) imm)) := by
  have hbase : (if s.cfg.jalrLinkFirst then (s.writeLink rd s.linkValue).readReg rs1 else s.readReg rs1) =
      s.jalrOperand rd rs1 := by
    rw [State.readReg_writeLink, State.linkValue_eq, State.jalrOperand]
    by_cases hfirst : s.cfg.jalrLinkFirst = true
    · simp only [hfirst, if_true, true_and, and_comm, eq_comm]
    · simp [hfirst]
  rw [execJalr, hbase]

end Sys2Proof.Machine
end

