-- ==== Sys2Proof/Proofs/RegisterZero.lean ====
section
/-! Register 0 (10_state.md R21). -/

namespace Sys2Proof.Machine

/-- With rd = x0 a jump writes no register (R21). -/
theorem jump_keeps_regs_of_rd_zero {s t : State} {target : Word}
    (h : .next ((s.writeLink 0#5 s.linkValue).setPc target) = (.next t : Result)) : RegsSameBut none s t := by
  cases h
  obtain ⟨-, hregs, -⟩ := s.writeLink_linksAndJumps 0#5 target
  simpa using hregs

/-- Settles O30: the nine mnemonics all end in `State.finish`. -/
theorem registerZeroIsOrdinaryUnlessHardwired : Obligations.RegisterZeroIsOrdinaryUnlessHardwired := by
  refine ⟨fun s v hx => ?_, fun s v hx => ?_, ?_, ?_⟩
  · exact s.readReg_writeReg_same 0#5 v (by simp [regPinned, hx])
  · exact ⟨State.writeReg_of_pinned ⟨hx, rfl⟩ v, State.readReg_of_pinned ⟨hx, rfl⟩⟩
  · intro s f7 f3 rs1 rs2 imm i v hi
    simp only [List.mem_cons, Prod.mk.injEq, List.not_mem_nil, or_false] at hi
    rcases hi with ⟨rfl, rfl⟩ | ⟨rfl, rfl⟩ | ⟨rfl, rfl⟩ | ⟨rfl, rfl⟩ | ⟨rfl, rfl⟩ | ⟨rfl, rfl⟩ | ⟨rfl, rfl⟩ |
      ⟨rfl, rfl⟩ | ⟨rfl, rfl⟩ | ⟨rfl, rfl⟩ | ⟨rfl, rfl⟩ <;> exact s.finish_eq 0#5 _
  · rintro s t f rs1 imm imm' (h | h)
    · exact jump_keeps_regs_of_rd_zero ((execJalr_eq f 0#5 rs1 imm s).symm.trans h)
    · exact jump_keeps_regs_of_rd_zero h

end Sys2Proof.Machine
end

