-- ==== Sys2Proof/Proofs/NegativeTarget.lean ====
section
/-! A negative control-transfer target wraps out of every program within the bound, so the next step ends the run
(10_state.md R27; 40_step.md R81). -/

namespace Sys2Proof.Machine

/-- The two's-complement pattern of a negative integer. -/
theorem toNat_norm32_of_neg {n : Int} (hlo : -2 ^ 32 ≤ n) (hneg : n < 0) :
    ((norm32 n).toNat : Int) = 2 ^ 32 + n := by
  simp only [norm32, toBinary, BitVec.toNat_ofInt]
  omega

theorem toSigned_bounds {n : Nat} (f : BitVec (n + 1)) : -2 ^ n ≤ toSigned f ∧ toSigned f < 2 ^ n :=
  ⟨BitVec.le_toInt f, BitVec.toInt_lt⟩

/-- The range test is the first thing a Running step does (R81, R203). -/
theorem step_of_outsideProgram {s : State} (hrun : s.status = .running) (hout : s.outsideProgram) :
    step s = .next (s.stop .ended) := by
  simp only [step, hrun, State.stopBeforeFetch, if_pos hout]

/-- What R27 says of a state that a control transfer with a negative target leads to. -/
def EndsAtNegative (target : Int) (t : State) : Prop :=
  (t.pc.toNat : Int) = 2 ^ 32 + target ∧ 2 ^ 31 - 2 ^ 11 ≤ t.pc.toNat ∧ ∃ u, step t = .next u ∧ OnlyStops .ended t u

/-- Every exact target is at least -2^31 - 2^11, the least one of JALR, so its pattern lies outside the program. -/
theorem endsAtNegative_of_pc {t : State} {target : Int} (hrun : t.status = .running)
    (hlen : t.program.length ≤ Config.maxProgLen) (hpc : t.pc = norm32 target)
    (hlo : -2 ^ 31 - 2 ^ 11 ≤ target) (hneg : target < 0) : EndsAtNegative target t := by
  have hnat : (t.pc.toNat : Int) = 2 ^ 32 + target := hpc ▸ toNat_norm32_of_neg (by omega) hneg
  have hpcLo : 2 ^ 31 - 2 ^ 11 ≤ t.pc.toNat := by omega
  have hmax : Config.maxProgLen = 2 ^ 29 - 512 := rfl
  have hout : t.outsideProgram := by simp only [State.outsideProgram]; omega
  exact ⟨hnat, hpcLo, _, step_of_outsideProgram hrun hout, t.stop_onlyStops _⟩

/-- A control transfer relative to the pc reaches down by its immediate at most. -/
theorem pcRelative_lower_bound (s : State) {n : Nat} (hn : n ≤ 20) (imm : BitVec (n + 1)) :
    -2 ^ 31 - 2 ^ 11 ≤ uint s.pc + toSigned imm := by
  have himm := (toSigned_bounds imm).1
  have hpow : (2 : Int) ^ n ≤ 2 ^ 20 := pow_le_pow_right₀ (by decide) hn
  have hpc : 0 ≤ uint s.pc := Int.natCast_nonneg _
  omega

theorem endsAtNegative_of_taken_branch {s t : State} {imm : BitVec 13} (hrun : s.status = .running)
    (hlen : s.program.length ≤ Config.maxProgLen) (h : s.branch true imm = .next t)
    (hneg : uint s.pc + toSigned imm < 0) : EndsAtNegative (uint s.pc + toSigned imm) t := by
  cases h
  exact endsAtNegative_of_pc hrun hlen rfl (pcRelative_lower_bound s (by decide) imm) hneg

/-- Settles O46: each of the four transfers moves the pc to its target's pattern and keeps status and program. -/
theorem negativeTargetEndsRun : Obligations.NegativeTargetEndsRun := by
  intro s t i target hrun hlen h hneg htransfer
  rcases htransfer with ⟨rd, imm, rfl, rfl⟩ | ⟨rs1, rs2, imm, rfl, heq, rfl⟩ | ⟨rs1, rs2, imm, rfl, hne, rfl⟩ |
    ⟨f, rd, rs1, imm, n, rfl, hn, rfl⟩
  · cases h
    exact endsAtNegative_of_pc (by simpa using hrun) (by simpa using hlen) rfl (pcRelative_lower_bound s le_rfl imm) hneg
  · have htaken : condEq (s.readReg rs1) (s.readReg rs2) = true := beq_iff_eq.mpr heq
    exact endsAtNegative_of_taken_branch hrun hlen (htaken ▸ h) hneg
  · have htaken : condNe (s.readReg rs1) (s.readReg rs2) = true := bne_iff_ne.mpr hne
    exact endsAtNegative_of_taken_branch hrun hlen (htaken ▸ h) hneg
  · cases (execJalr_eq f rd rs1 imm s).symm.trans h
    have hbase := (toSigned_bounds (n := 31) (s.jalrOperand rd rs1)).1
    have himm := (toSigned_bounds imm).1
    have hsum : n = toSigned (s.jalrOperand rd rs1) + toSigned imm := hn
    refine endsAtNegative_of_pc (by simpa using hrun) (by simpa using hlen) ?_ (by omega) hneg
    rw [State.setPc_pc, hn]
    rfl

end Sys2Proof.Machine
end

