-- ==== Sys2Proof/Proofs/DecodeOperands.lean ====
section
/-! The register operands and the opcode of a decoded instruction are the fields of its word (30_encoding.md R61 to R73). -/

namespace Sys2Proof

open Sys2Proof.Laws.EncodesFields (rdOperand rs1Operand rs2Operand opcodeFor)

/-- Every register operand and the opcode of the instruction, where it has them, are the fields of the word, and the opcode
of an INVALID word is outside the table. -/
structure OperandsFrom (w : Word) (i : Instr) : Prop where
  rd : ∀ r, rdOperand i = some r → r = rdOf w
  rs1 : ∀ r, rs1Operand i = some r → r = rs1Of w
  rs2 : ∀ r, rs2Operand i = some r → r = rs2Of w
  opcode : ∀ op, opcodeFor i = some op → opcodeOf w = op
  invalid : ∀ v, i = .invalid v → opcodeOf w ∉ tableOpcodes

/-- The opcodes of a category (the table of R63 read backwards). -/
theorem opcode_of_classify (op : BitVec 7) :
    match classify op with
    | .r => op = 0b0110011#7
    | .i => op = 0b0000011#7 ∨ op = 0b0010011#7 ∨ op = 0b1100111#7
    | .s => op = 0b0100011#7
    | .b => op = 0b1100011#7
    | .j => op = 0b1101111#7
    | .invalid => op ∉ tableOpcodes := by
  unfold classify
  split_ifs <;> simp [tableOpcodes, *]

theorem selectR_operandsFrom {w : Word} (h : opcodeOf w = 0b0110011#7) : OperandsFrom w (selectR w) := by
  unfold selectR
  split_ifs <;> constructor <;> simp [rdOperand, rs1Operand, rs2Operand, opcodeFor, h]

theorem selectI_operandsFrom {w : Word}
    (h : opcodeOf w = 0b0000011#7 ∨ opcodeOf w = 0b0010011#7 ∨ opcodeOf w = 0b1100111#7) :
    OperandsFrom w (selectI w) := by
  unfold selectI
  split_ifs <;> constructor <;> simp_all [rdOperand, rs1Operand, rs2Operand, opcodeFor]

theorem selectS_operandsFrom {w : Word} (h : opcodeOf w = 0b0100011#7) : OperandsFrom w (selectS w) := by
  constructor <;> simp [selectS, rdOperand, rs1Operand, rs2Operand, opcodeFor, h]

theorem selectB_operandsFrom {w : Word} (h : opcodeOf w = 0b1100011#7) : OperandsFrom w (selectB w) := by
  unfold selectB
  split_ifs <;> constructor <;> simp [rdOperand, rs1Operand, rs2Operand, opcodeFor, h]

theorem selectJ_operandsFrom {w : Word} (h : opcodeOf w = 0b1101111#7) : OperandsFrom w (selectJ w) := by
  constructor <;> simp [selectJ, rdOperand, rs1Operand, rs2Operand, opcodeFor, h]

theorem decode_operandsFrom (sentinel w : Word) : OperandsFrom w (decode sentinel w) := by
  by_cases hw : w = sentinel
  · subst hw
    rw [decode_sentinel]
    constructor <;> nofun
  have hop := opcode_of_classify (opcodeOf w)
  rw [decode, if_neg hw]
  cases hc : classify (opcodeOf w) <;> rw [hc] at hop
  case r => exact selectR_operandsFrom hop
  case i => exact selectI_operandsFrom hop
  case s => exact selectS_operandsFrom hop
  case b => exact selectB_operandsFrom hop
  case j => exact selectJ_operandsFrom hop
  case invalid => exact ⟨nofun, nofun, nofun, nofun, fun _ _ => hop⟩

end Sys2Proof
end

