-- ==== Sys2Proof/Proofs/Ports.lean ====
section
/-! The block interface describes the step (10_state.md R37), for the word and the sentinel given apart from the state, so
that it says of every decoded word what its execution reads and writes. -/

namespace Sys2Proof.Machine

namespace State

/-- The input ports while the word `w` is executed. -/
def portsInFor (s : State) (w loadData : Word) : PortsIn where
  instr    := w
  pc       := s.pc
  rs1Data  := s.readReg (rs1Of w)
  rs2Data  := s.readReg (rs2Of w)
  loadData := loadData

/-- The same with the load value the router answers to the address of the datapath. -/
def settledPortsIn (s : State) (sentinel w : Word) : PortsIn :=
  s.portsInFor w (s.memRead (datapath { s.cfg with haltSentinel := sentinel } (s.portsInFor w 0#32)).ea)

/-- The settled output ports while the word `w` is executed under a sentinel. -/
def portsOutFor (s : State) (sentinel w : Word) : PortsOut :=
  datapath { s.cfg with haltSentinel := sentinel } (s.settledPortsIn sentinel w)

theorem portsOut_eq (s : State) : s.portsOut = s.portsOutFor s.cfg.haltSentinel s.fetchWord := rfl

section endings
variable (s : State) {p : PortsIn} (hpc : p.pc = s.pc)
include hpc

theorem finish_eq_applyPorts (v : Word) : s.finish (rdOf p.instr) v = .next (s.applyPorts (portsWrite p v)) := by
  rw [finish, advance, pcPlus, writeReg_pc, ← hpc]
  rfl

theorem advance_eq_applyPorts : s.advance = s.applyPorts (portsIdle p) := by
  rw [advance, pcPlus, ← hpc]
  rfl

theorem branch_eq_applyPorts (taken : Bool) (imm : BitVec 13) :
    s.branch taken imm = .next (s.applyPorts (portsBranch p taken imm)) := by
  rw [branch, branchTarget, pcPlus, pcPlus, ← hpc]
  rfl

theorem store_eq_applyPorts (hrs2 : p.rs2Data = s.readReg (rs2Of p.instr)) (ea : Int) :
    (s.memWrite ea (s.readReg (rs2Of p.instr))).advance = s.applyPorts { portsIdle p with memWe := true, ea := ea } := by
  rw [advance, pcPlus, memWrite_pc, ← hpc, ← hrs2]
  rfl

theorem jump_eq_applyPorts (target : Word) :
    (s.writeLink (rdOf p.instr) s.linkValue).setPc target = s.applyPorts (portsJump p (rdOf p.instr) target) := by
  rw [linkValue, pcPlus, ← hpc]
  by_cases hrd : rdOf p.instr = 0#5
  · simp [writeLink, applyPorts, portsJump, portsIdle, hrd]
  · simp [writeLink, applyPorts, portsJump, portsIdle, hrd]

end endings

end State

/-- The input ports carry what the state holds, the load value where LW uses it, and the configuration is the state's but
for the sentinel. -/
structure State.Feeds (s : State) (c : Config) (p : PortsIn) : Prop where
  pc : p.pc = s.pc
  rs1Data : p.rs1Data = s.readReg (rs1Of p.instr)
  rs2Data : p.rs2Data = s.readReg (rs2Of p.instr)
  loadData : ∀ f rd rs1 imm, decode c.haltSentinel p.instr = .lw f rd rs1 imm →
    p.loadData = s.memRead (effAddr p.rs1Data imm)
  linkFirst : c.jalrLinkFirst = s.cfg.jalrLinkFirst
  invalidPolicy : c.invalidOpcodePolicy = s.cfg.invalidOpcodePolicy

theorem State.Feeds.jalrBase_eq {s : State} {c : Config} {p : PortsIn} (h : s.Feeds c p) (rd : Reg) :
    jalrBase c p rd (rs1Of p.instr) = s.jalrOperand rd (rs1Of p.instr) := by
  have hlink : norm32 (uint s.pc + 4) = s.pc + 4#32 := s.pcPlus_four
  rw [jalrBase, State.jalrOperand, h.linkFirst, h.rs1Data, h.pc, hlink]

/-- Executing the word is the update by the datapath's ports (R37). -/
theorem State.Feeds.exec_eq_applyPorts {s : State} {c : Config} {p : PortsIn} (h : s.Feeds c p) :
    exec (decode c.haltSentinel p.instr) s = .next (s.applyPorts (datapath c p)) := by
  obtain ⟨hrd, hrs1, hrs2, -, -⟩ := decode_operandsFrom c.haltSentinel p.instr
  have hload := h.loadData
  unfold datapath
  generalize decode c.haltSentinel p.instr = i at hrd hrs1 hrs2 hload ⊢
  cases i with
  | halt =>
    rw [h.pc]
    rfl
  | invalid v =>
    simp only [exec, execInvalid, h.invalidPolicy]
    cases s.cfg.invalidOpcodePolicy with
    | nop => exact congrArg Host.Outcome.next (s.advance_eq_applyPorts h.pc)
    | decodeError =>
      rw [h.pc]
      rfl
  | add rd rs1 rs2 | sub _ rd rs1 rs2 | slt _ rd rs1 rs2 | sra _ rd rs1 rs2 | orReg _ rd rs1 rs2
  | andReg _ rd rs1 rs2 =>
    obtain rfl := hrd rd rfl
    obtain rfl := hrs1 rs1 rfl
    obtain rfl := hrs2 rs2 rfl
    rw [h.rs1Data, h.rs2Data]
    exact s.finish_eq_applyPorts h.pc _
  | rzero001 _ rd | rzero011 _ rd | rzero100 _ rd =>
    obtain rfl := hrd rd rfl
    exact s.finish_eq_applyPorts h.pc _
  | lw _ rd rs1 imm =>
    obtain rfl := hrd rd rfl
    obtain rfl := hrs1 rs1 rfl
    rw [hload _ _ _ _ rfl, h.rs1Data]
    exact s.finish_eq_applyPorts h.pc _
  | addi _ rd rs1 =>
    obtain rfl := hrd rd rfl
    obtain rfl := hrs1 rs1 rfl
    rw [h.rs1Data]
    exact s.finish_eq_applyPorts h.pc _
  | sw _ rs1 rs2 imm =>
    obtain rfl := hrs1 rs1 rfl
    obtain rfl := hrs2 rs2 rfl
    rw [h.rs1Data]
    exact congrArg Host.Outcome.next (s.store_eq_applyPorts h.pc h.rs2Data _)
  | beq rs1 rs2 | bne rs1 rs2 =>
    obtain rfl := hrs1 rs1 rfl
    obtain rfl := hrs2 rs2 rfl
    rw [h.rs1Data, h.rs2Data]
    exact s.branch_eq_applyPorts h.pc _ _
  | bnop010 | bnop011 | bnop100 | bnop101 | bnop110 | bnop111 =>
    exact congrArg Host.Outcome.next (s.advance_eq_applyPorts h.pc)
  | jal rd imm =>
    obtain rfl := hrd rd rfl
    rw [h.pc]
    exact congrArg Host.Outcome.next (s.jump_eq_applyPorts h.pc _)
  | jalr f rd rs1 imm =>
    obtain rfl := hrd rd rfl
    obtain rfl := hrs1 rs1 rfl
    rw [exec, execJalr_eq, ← h.jalrBase_eq]
    exact congrArg Host.Outcome.next (s.jump_eq_applyPorts h.pc _)

theorem exec_decode_eq_applyPorts (sentinel w : Word) (s : State) :
    exec (decode sentinel w) s = .next (s.applyPorts (s.portsOutFor sentinel w)) := by
  have hfeeds : s.Feeds { s.cfg with haltSentinel := sentinel } (s.settledPortsIn sentinel w) := by
    refine ⟨rfl, rfl, rfl, fun f rd rs1 imm hlw => ?_, rfl, rfl⟩
    have hlw0 : decode sentinel w = .lw f rd rs1 imm := hlw
    simp only [State.settledPortsIn, State.portsInFor, datapath, hlw0]
  exact hfeeds.exec_eq_applyPorts

/-- Settles O51: the tests before the fetch are the same, and past them both steps record the same state. -/
theorem datapathRefinesStep : Obligations.DatapathRefinesStep := by
  intro s
  unfold datapathStep step
  cases s.status with
  | running =>
    cases s.stopBeforeFetch with
    | some st => rfl
    | none => rw [State.portsOut_eq, State.fetched, exec_decode_eq_applyPorts]
  | halted | ended | faultedFetchMisaligned | refusedDecodeError => rfl

end Sys2Proof.Machine
end

