-- ==== Sys2Proof/Proofs/PortValues.lean ====
section
/-! The values of the output ports (10_state.md R38). -/

namespace Sys2Proof.Machine

theorem datapath_portsAsListed (c : Config) (p : PortsIn) :
    PortsAsListed c (decode c.haltSentinel p.instr) (datapath c p) := by
  unfold datapath
  generalize decode c.haltSentinel p.instr = i
  cases i with
  | invalid =>
    simp only [PortsAsListed]
    cases c.invalidOpcodePolicy <;> simp [portsIdle]
  | jal | jalr => simp [PortsAsListed, portsJump, portsIdle]
  | _ => exact ⟨rfl, rfl, rfl⟩

/-- The ports that no instruction sets: the register indices and the store value. -/
theorem datapath_fixed_ports (c : Config) (p : PortsIn) :
    (datapath c p).rs1Idx = rs1Of p.instr ∧ (datapath c p).rs2Idx = rs2Of p.instr ∧
    (datapath c p).rdIdx = rdOf p.instr ∧ (datapath c p).memWdata = p.rs2Data := by
  unfold datapath
  cases decode c.haltSentinel p.instr with
  | invalid => cases c.invalidOpcodePolicy <;> exact ⟨rfl, rfl, rfl, rfl⟩
  | _ => exact ⟨rfl, rfl, rfl, rfl⟩

theorem datapath_halt_iff (c : Config) (p : PortsIn) :
    (datapath c p).halt = true ↔ p.instr = c.haltSentinel := by
  rw [← decode_eq_halt_iff]
  unfold datapath
  cases decode c.haltSentinel p.instr with
  | halt => exact iff_of_true rfl rfl
  | invalid => cases c.invalidOpcodePolicy <;> exact iff_of_false nofun nofun
  | _ => exact iff_of_false nofun nofun

/-- Settles O52: the enables, `halt` and the ports that no instruction sets. -/
theorem portsFollowInstruction : Obligations.PortsFollowInstruction :=
  fun c p => ⟨datapath_portsAsListed c p, datapath_halt_iff c p, datapath_fixed_ports c p⟩

end Sys2Proof.Machine
end

