-- ==== Sys2Proof/Proofs/PortUpdate.lean ====
section
/-! The update by the output ports (10_state.md R37), field by field. -/

namespace Sys2Proof.Machine.State

theorem memWrite_dataMem_congr {s t : State} (hd : t.dataMem = s.dataMem) (hc : t.cfg = s.cfg) (ea : Int) (v : Word) :
    (t.memWrite ea v).dataMem = (s.memWrite ea v).dataMem := by
  unfold memWrite
  rw [hc]
  split <;> simp [hd]

theorem memWrite_stackMem_congr {s t : State} (hs : t.stackMem = s.stackMem) (hc : t.cfg = s.cfg) (ea : Int) (v : Word) :
    (t.memWrite ea v).stackMem = (s.memWrite ea v).stackMem := by
  unfold memWrite
  rw [hc]
  split <;> simp [hs]

section applyPorts
variable (s : State) (o : PortsOut)

@[simp] theorem applyPorts_pc : (s.applyPorts o).pc = o.nextPc := by
  unfold applyPorts
  split_ifs <;> rfl

@[simp] theorem applyPorts_trace : (s.applyPorts o).trace = s.trace := by
  unfold applyPorts
  split_ifs <;> simp [stop]

@[simp] theorem applyPorts_status : (s.applyPorts o).status =
    if o.halt then .halted else if o.decodeError then .refusedDecodeError else s.status := by
  unfold applyPorts
  split_ifs <;> simp [stop]

@[simp] theorem applyPorts_dataMem : (s.applyPorts o).dataMem =
    if o.memWe then (s.memWrite o.ea o.memWdata).dataMem else s.dataMem := by
  unfold applyPorts
  split_ifs <;> simp [stop, memWrite_dataMem_congr (writeReg_dataMem s _ _) (writeReg_cfg s _ _)]

@[simp] theorem applyPorts_stackMem : (s.applyPorts o).stackMem =
    if o.memWe then (s.memWrite o.ea o.memWdata).stackMem else s.stackMem := by
  unfold applyPorts
  split_ifs <;> simp [stop, memWrite_stackMem_congr (writeReg_stackMem s _ _) (writeReg_cfg s _ _)]

/-- Only the write port changes what a register reads as. -/
theorem applyPorts_readReg (r : Reg) :
    (s.applyPorts o).readReg r = if o.rdWe then (s.writeReg o.rdIdx o.rdWdata).readReg r else s.readReg r := by
  unfold applyPorts
  split_ifs <;> simp [stop]

theorem applyPorts_regsSameBut_rdIdx : RegsSameBut (some o.rdIdx) s (s.applyPorts o) := by
  intro r hr
  have hne : r ≠ o.rdIdx := fun heq => hr (by rw [heq])
  rw [applyPorts_readReg, readReg_writeReg, if_neg hne, ite_self]

variable {o} in
theorem applyPorts_regsSameBut_none (h : ¬o.rdWe = true) : RegsSameBut none s (s.applyPorts o) := by
  intro r _
  rw [applyPorts_readReg, if_neg h]

end applyPorts

end Sys2Proof.Machine.State
end

