-- ==== Sys2Proof/Proofs/RegisterFile.lean ====
section
/-! The register-file ports of an execution (10_state.md R23), read off the datapath: a register that the read ports do not
name is not among its inputs, and the write port is enabled exactly for the words that write rd. -/

namespace Sys2Proof.Machine

/-- The words that write rd: the R-type words, LW and ADDI, and JAL and JALR where rd is not x0. -/
def WritesRegister (sentinel w : Word) : Prop :=
  w ≠ sentinel ∧ (opcodeOf w ∈ [0b0110011#7, 0b0000011#7, 0b0010011#7] ∨
    opcodeOf w ∈ [0b1101111#7, 0b1100111#7] ∧ rdOf w ≠ 0#5)

theorem not_writesRegister_of_no_write_port {sentinel w : Word}
    (h : w = sentinel ∨ opcodeOf w = 0b0100011#7 ∨ opcodeOf w = 0b1100011#7 ∨ opcodeOf w ∉ tableOpcodes) :
    ¬WritesRegister sentinel w := by
  rintro ⟨hw, hop⟩
  obtain heq | hstore | hbranch | hout := h
  · exact hw heq
  · simp [hstore] at hop
  · simp [hbranch] at hop
  · simp only [tableOpcodes, List.mem_cons, not_or] at hout
    simp [hout] at hop

theorem not_writesRegister_of_jump_rd_zero {sentinel w : Word}
    (hjump : opcodeOf w = 0b1101111#7 ∨ opcodeOf w = 0b1100111#7) (hzero : rdOf w = 0#5) :
    ¬WritesRegister sentinel w := by
  rintro ⟨-, hop⟩
  obtain hjal | hjalr := hjump
  · simp [hjal, hzero] at hop
  · simp [hjalr, hzero] at hop

/-- The write port is enabled exactly for the words that write rd. -/
theorem datapath_rdWe_iff (c : Config) (p : PortsIn) :
    (datapath c p).rdWe = true ↔ WritesRegister c.haltSentinel p.instr := by
  have hlisted := datapath_portsAsListed c p
  obtain ⟨hrd, -, -, hop, hinvalid⟩ := decode_operandsFrom c.haltSentinel p.instr
  rw [WritesRegister, Ne, ← decode_eq_halt_iff]
  generalize decode c.haltSentinel p.instr = i at hlisted hrd hop hinvalid ⊢
  cases i with
  | halt =>
    obtain ⟨-, hwe, -⟩ := hlisted
    simp [hwe]
  | invalid v =>
    obtain ⟨hwe, -⟩ := hlisted
    have hout := hinvalid v rfl
    simp only [tableOpcodes, List.mem_cons, not_or] at hout
    simp [hwe, hout]
  | jal rd | jalr _ rd =>
    obtain ⟨hwe, -⟩ := hlisted
    simp [hwe, hrd rd rfl, hop _ rfl]
  | _ =>
    obtain ⟨hwe, -⟩ := hlisted
    simp [hwe, hop _ rfl]

namespace State

/-! ## Another value in one register beforehand -/

/-- The output ports do not depend on a register that the read ports do not name. -/
theorem portsOutFor_writeReg (s : State) (sentinel w : Word) {q : Reg} (h1 : q ≠ rs1Of w) (h2 : q ≠ rs2Of w) (v : Word) :
    (s.writeReg q v).portsOutFor sentinel w = s.portsOutFor sentinel w := by
  have hin : ∀ l, (s.writeReg q v).portsInFor w l = s.portsInFor w l := by
    intro l
    simp [portsInFor, readReg_writeReg, h1.symm, h2.symm]
  simp [portsOutFor, settledPortsIn, hin]

/-- With the same ports the two updates differ in that register alone, and not even there where the port writes it. -/
theorem applyPorts_writeReg (s : State) (o : PortsOut) (q : Reg) (v : Word) :
    (∀ r : Reg, r ≠ q → ((s.writeReg q v).applyPorts o).readReg r = (s.applyPorts o).readReg r) ∧
    (o.rdWe = true → q = o.rdIdx → ((s.writeReg q v).applyPorts o).readReg q = (s.applyPorts o).readReg q) ∧
    ((s.writeReg q v).applyPorts o).dataMem = (s.applyPorts o).dataMem ∧
    ((s.writeReg q v).applyPorts o).stackMem = (s.applyPorts o).stackMem := by
  refine ⟨fun r hr => ?_, fun hwe hq => ?_, ?_, ?_⟩
  · simp only [applyPorts_readReg, readReg_writeReg, writeReg_cfg, if_neg hr]
  · simp only [applyPorts_readReg, readReg_writeReg, writeReg_cfg, hwe, hq, if_true]
  · simp [memWrite_dataMem_congr (writeReg_dataMem s q v) (writeReg_cfg s q v)]
  · simp [memWrite_stackMem_congr (writeReg_stackMem s q v) (writeReg_cfg s q v)]

end State

/-- Settles O31: an execution is the update by its ports (`exec_decode_eq_applyPorts`). -/
theorem registerFilePorts : Obligations.RegisterFilePorts := by
  intro sentinel w s t h
  rw [exec_decode_eq_applyPorts] at h
  cases h
  have hwe : (s.portsOutFor sentinel w).rdWe = true ↔ WritesRegister sentinel w := datapath_rdWe_iff _ _
  have hrd : (s.portsOutFor sentinel w).rdIdx = rdOf w := by
    obtain ⟨-, -, hrd, -⟩ := datapath_fixed_ports { s.cfg with haltSentinel := sentinel } (s.settledPortsIn sentinel w)
    exact hrd
  refine ⟨?_, fun hnone => ?_, fun ⟨hjump, hzero⟩ => ?_, ?_⟩
  · have hsame := s.applyPorts_regsSameBut_rdIdx (s.portsOutFor sentinel w)
    rw [hrd] at hsame
    exact hsame
  · exact s.applyPorts_regsSameBut_none (mt hwe.mp (not_writesRegister_of_no_write_port hnone))
  · exact s.applyPorts_regsSameBut_none (mt hwe.mp (not_writesRegister_of_jump_rd_zero hjump hzero))
  · intro q v h1 h2
    obtain ⟨hother, hwritten, hdata, hstack⟩ := s.applyPorts_writeReg (s.portsOutFor sentinel w) q v
    refine ⟨_, exec_decode_eq_applyPorts sentinel w _, ?_⟩
    rw [s.portsOutFor_writeReg sentinel w h1 h2 v]
    refine ⟨hother, ?_, by simp, hdata, hstack, by simp, by simp⟩
    rintro ⟨hw, rfl, hop⟩
    exact hwritten (hwe.mpr ⟨hw, hop⟩) hrd.symm

end Sys2Proof.Machine
end

