-- ==== Sys2Proof/Proofs/Router.lean ====
section
/-! What the router answers, exactly: the word that contains the address (20_memory.md R42, R44, R45), for the exact
effective address and for the same address wrapped to 32 bits (R41). -/

namespace Sys2Proof.Machine

/-- `ea` is one of the four byte addresses of word `i` of the region at `base`. -/
def InWord (base : Word) (i : Nat) (ea : Int) : Prop := uint base + 4 * i ≤ ea ∧ ea < uint base + 4 * i + 4

/-- An address of a region lies in the word that `wordIndex` names, and in no other. -/
theorem inRegion_and_wordIndex_iff {base : Word} {size i : Nat} {ea : Int} :
    inRegion base size ea ∧ i = wordIndex base ea ↔ i < size ∧ InWord base i ea := by
  unfold inRegion wordIndex InWord
  omega

/-! ## The tests of the router in their order (R42, R45) -/

theorem route_of_inStack {c : Config} {ea : Int} (halign : c.alignCheck = true → ea % 4 = 0)
    (hon : c.stackEnabled = true) (hin : inRegion c.stackBase c.stackSize ea) :
    route c ea = .stack (wordIndex c.stackBase ea) := by
  rw [route, if_neg (by tauto), if_pos ⟨hon, hin⟩]

theorem route_of_inData {c : Config} {ea : Int} (halign : c.alignCheck = true → ea % 4 = 0)
    (hstack : ¬(c.stackEnabled = true ∧ inRegion c.stackBase c.stackSize ea))
    (hin : inRegion c.memStart c.memSize ea) : route c ea = .data (wordIndex c.memStart ea) := by
  rw [route, if_neg (by tauto), if_neg hstack, if_pos hin]

theorem route_eq_stack_iff {c : Config} {ea : Int} {i : Nat} :
    route c ea = .stack i ↔ (c.alignCheck = true → ea % 4 = 0) ∧ c.stackEnabled = true ∧ i < c.stackSize ∧
      InWord c.stackBase i ea := by
  rw [← inRegion_and_wordIndex_iff]
  constructor
  · intro h
    obtain ⟨halign, hon, hin, hi, -⟩ := route_stack h
    exact ⟨by tauto, hon, hin, hi⟩
  · rintro ⟨halign, hon, hin, rfl⟩
    exact route_of_inStack halign hon hin

theorem route_eq_data_iff {c : Config} {ea : Int} {i : Nat} :
    route c ea = .data i ↔ (c.alignCheck = true → ea % 4 = 0) ∧
      ¬(c.stackEnabled = true ∧ inRegion c.stackBase c.stackSize ea) ∧ i < c.memSize ∧ InWord c.memStart i ea := by
  rw [← inRegion_and_wordIndex_iff]
  constructor
  · intro h
    obtain ⟨halign, hstack, hin, hi, -⟩ := route_data h
    exact ⟨by tauto, hstack, hin, hi⟩
  · rintro ⟨halign, hstack, hin, rfl⟩
    exact route_of_inData halign hstack hin

theorem route_eq_unmapped_iff {c : Config} {ea : Int} :
    route c ea = .unmapped ↔ (c.alignCheck = true ∧ ea % 4 ≠ 0) ∨
      (¬(c.stackEnabled = true ∧ inRegion c.stackBase c.stackSize ea) ∧ ¬inRegion c.memStart c.memSize ea) := by
  by_cases halign : c.alignCheck = true ∧ ea % 4 ≠ 0
  · rw [route, if_pos halign]
    exact iff_of_true rfl (.inl halign)
  by_cases hstack : c.stackEnabled = true ∧ inRegion c.stackBase c.stackSize ea
  · rw [route_of_inStack (by tauto) hstack.1 hstack.2]
    exact iff_of_false nofun (by tauto)
  by_cases hdata : inRegion c.memStart c.memSize ea
  · rw [route_of_inData (by tauto) hstack hdata]
    exact iff_of_false nofun (by tauto)
  · rw [route, if_neg halign, if_neg hstack, if_neg hdata]
    exact iff_of_true rfl (.inr ⟨hstack, hdata⟩)

/-- Settles O32: one characterisation for each answer of the router. -/
theorem routerAnswersContainingWord : Obligations.RouterAnswersContainingWord :=
  fun _ _ => ⟨fun _ => route_eq_stack_iff, fun _ => route_eq_data_iff, route_eq_unmapped_iff⟩

/-! ## The effective address, exact and wrapped (R41) -/

theorem effAddr_bounds (base : Word) (imm : BitVec 12) :
    -2 ^ 31 - 2 ^ 11 ≤ effAddr base imm ∧ effAddr base imm ≤ 2 ^ 31 + 2 ^ 11 - 2 := by
  have hbase : -2 ^ 31 ≤ sint base ∧ sint base < 2 ^ 31 := toSigned_bounds (n := 31) base
  have himm : -2 ^ 11 ≤ toSigned imm ∧ toSigned imm < 2 ^ 11 := toSigned_bounds imm
  unfold effAddr
  omega

/-- Wrapping leaves an address that fits in 32 bits as it is. -/
theorem uint_norm32_of_nonneg {n : Int} (hlo : 0 ≤ n) (hhi : n < 2 ^ 32) : uint (norm32 n) = n := by
  simp only [uint, norm32, toBinary, BitVec.toNat_ofInt]
  omega

/-- A region that ends at or below `limit` holds no negative address and none from `limit` on. -/
theorem not_inRegion_of_outside {base : Word} {size : Nat} {ea limit : Int} (hend : uint base + 4 * size ≤ limit)
    (hout : ea < 0 ∨ limit ≤ ea) : ¬inRegion base size ea := by
  have hbase : 0 ≤ uint base := Int.natCast_nonneg _
  unfold inRegion
  omega

/-- With both regions below `limit`, an address below 0 or from `limit` on is unmapped. -/
theorem route_eq_unmapped_of_outside {c : Config} {ea limit : Int} (hmem : uint c.memStart + 4 * c.memSize ≤ limit)
    (hstack : c.stackEnabled = true → uint c.stackBase + 4 * c.stackSize ≤ limit) (hout : ea < 0 ∨ limit ≤ ea) :
    route c ea = .unmapped :=
  route_eq_unmapped_iff.mpr (.inr
    ⟨fun ⟨hon, hin⟩ => not_inRegion_of_outside (hstack hon) hout hin, not_inRegion_of_outside hmem hout⟩)

/-- Settles O34: a nonnegative address is its own wrapped form; a negative one wraps to at least 2^31 - 2^11, and both are
then unmapped. -/
theorem effectiveAddressIsExact : Obligations.EffectiveAddressIsExact := by
  intro base imm
  obtain ⟨hlo, hhi⟩ := effAddr_bounds base imm
  refine ⟨rfl, hlo, hhi, fun c hmem hstack => ?_⟩
  by_cases hneg : effAddr base imm < 0
  · have hwrapped : uint (norm32 (effAddr base imm)) = 2 ^ 32 + effAddr base imm := toNat_norm32_of_neg (by omega) hneg
    rw [hwrapped, route_eq_unmapped_of_outside hmem hstack (.inl hneg),
      route_eq_unmapped_of_outside hmem hstack (.inr (by omega))]
  · rw [uint_norm32_of_nonneg (by omega) (by omega)]

end Sys2Proof.Machine
end

