-- ==== Sys2Proof/Proofs/StoreLoad.lean ====
section
/-! A load after a store, and a store repeated (20_memory.md R48, R51; 90_conflicts.md C7). -/

namespace Sys2Proof.Machine

/-- Writing a word of a canonical store twice leaves the same list: both are canonical and read alike. -/
theorem Memory.write_write_same {m : Memory} (h : m.wf = true) (i : Nat) (v : Word) :
    (m.write i v).write i v = m.write i v := by
  have hw : (m.write i v).wf = true := Memory.write_wf h i v
  refine Memory.eq_of_read_eq (Memory.write_wf hw i v) hw fun j => ?_
  by_cases hj : i = j
  · subst hj
    rw [Memory.read_write_same hw, Memory.read_write_same h]
  · exact Memory.read_write_ne _ hj v

/-! ## What a store does, by the answer of the router -/

theorem State.memWrite_of_stack {s : State} {ea : Int} {i : Nat} (h : route s.cfg ea = .stack i) (v : Word) :
    s.memWrite ea v = s.setStackMem (s.stackMem.write i v) := by
  rw [State.memWrite, h]

theorem State.memWrite_of_data {s : State} {ea : Int} {i : Nat} (h : route s.cfg ea = .data i) (v : Word) :
    s.memWrite ea v = s.setDataMem (s.dataMem.write i v) := by
  rw [State.memWrite, h]

theorem State.memWrite_of_unmapped {s : State} {ea : Int} (h : route s.cfg ea = .unmapped) (v : Word) :
    s.memWrite ea v = s := by
  rw [State.memWrite, h]

theorem State.memRead_of_unmapped {s : State} {ea : Int} (h : route s.cfg ea = .unmapped) : s.memRead ea = 0#32 := by
  rw [State.memRead, h]

/-- Settles O36: the second store is routed to the same word, which holds the value already. -/
theorem storingTwiceIsStoringOnce : Obligations.StoringTwiceIsStoringOnce := by
  intro s ea v hd hs
  cases h : route s.cfg ea with
  | stack i =>
    have hagain : route (s.setStackMem (s.stackMem.write i v)).cfg ea = .stack i := h
    rw [State.memWrite_of_stack h, State.memWrite_of_stack hagain, State.setStackMem_stackMem, Memory.write_write_same hs]
    rfl
  | data i =>
    have hagain : route (s.setDataMem (s.dataMem.write i v)).cfg ea = .data i := h
    rw [State.memWrite_of_data h, State.memWrite_of_data hagain, State.setDataMem_dataMem, Memory.write_write_same hd]
    rfl
  | unmapped => rw [State.memWrite_of_unmapped h, State.memWrite_of_unmapped h]

/-! ## SW and LW -/

/-- SW stores its word and falls through; no register changes (R140). -/
theorem exec_sw_storesWord (f : BitVec 3) (rs1 rs2 : Reg) (imm : BitVec 12) {s : State} (hd : s.dataMem.wf = true)
    (hs : s.stackMem.wf = true) : ∃ t, exec (.sw f rs1 rs2 imm) s = .next t ∧
      StoresWord (effAddr (s.readReg rs1) imm) (s.readReg rs2) s t ∧ RegsSameBut none s t ∧ t.pc = s.pc + 4#32 ∧
      RunSame s t := by
  refine ⟨_, rfl, State.memWrite_storesWord hd hs _ _, ?_, ?_, ?_⟩
  · exact RegsSameBut.of_x (by simp [State.advance]) (by simp [State.advance]) none
  · simp [State.advance]
  · simp [RunSame, State.advance]

/-- LW writes what its address reads and falls through (R120). -/
theorem exec_lw_writesRd (f : BitVec 3) (rd rs1 : Reg) (imm : BitVec 12) (s : State) :
    ∃ t, exec (.lw f rd rs1 imm) s = .next t ∧ WritesRd rd (s.memRead (effAddr (s.readReg rs1) imm)) s t :=
  s.finish_writesRd rd _

/-- Settles O35: after the store the load's address, which is the same, reads as `StoresWord` says. -/
theorem loadReturnsLatestStore : Obligations.LoadReturnsLatestStore := by
  intro f f' rs1 rs2 rd rs1' imm imm' s hd hs
  obtain ⟨t, hsw, ⟨-, -, hread⟩, hregs, -, -, hcfg, -⟩ := exec_sw_storesWord f rs1 rs2 imm hd hs
  obtain ⟨u, hlw, hrd, -⟩ := exec_lw_writesRd f' rd rs1' imm' t
  rw [hregs rs1' nofun, hread, hcfg] at hrd
  refine ⟨t, u, _, hsw, hlw, hrd, fun hsame hmapped => ?_, fun hother => ?_, fun hunmapped => ?_⟩
  · exact if_pos ⟨hsame, hmapped⟩
  · exact if_neg fun ⟨hsame, _⟩ => hother hsame
  · rw [if_neg fun ⟨hsame, hmapped⟩ => hmapped (hsame.symm.trans hunmapped), State.memRead_of_unmapped hunmapped]

end Sys2Proof.Machine
end

