-- ==== Sys2Proof/Proofs/StepFrame.lean ====
section
/-! What every step leaves unchanged: the program store (20_memory.md R54), the configuration, and each data word that no
address is routed to. And what such a step keeps, a run keeps. -/

namespace Sys2Proof.Machine

theorem step_program_and_cfg {s t : State} (h : step s = .next t) : t.program = s.program ∧ t.cfg = s.cfg := by
  obtain ⟨-, ⟨-, rfl⟩ | ⟨-, -, rfl⟩ | ⟨-, u, hu, rfl⟩⟩ := step_cases h
  · exact ⟨rfl, rfl⟩
  · exact ⟨rfl, rfl⟩
  · obtain ⟨hprog, hcfg, -⟩ := exec_run hu
    simp [hprog, hcfg]

/-- Settles O45: the fetch and the tests before it read neither memory. -/
theorem programStoreIsOutOfReach : Obligations.ProgramStoreIsOutOfReach :=
  ⟨fun _ _ h => (step_program_and_cfg h).1, fun _ _ _ => ⟨rfl, rfl⟩⟩

/-- A store leaves a data word alone that its address is not routed to, in canonical form or not. -/
theorem State.memWrite_dataMem_read_of_route_ne {s : State} {ea : Int} {i : Nat} (h : route s.cfg ea ≠ .data i)
    (v : Word) : (s.memWrite ea v).dataMem.read i = s.dataMem.read i := by
  unfold State.memWrite
  split
  · rfl
  · next k hk =>
    have hne : k ≠ i := fun heq => h (heq ▸ hk)
    exact Memory.read_write_ne _ hne v
  · rfl

/-- A step changes data memory by one store at most. -/
theorem step_dataMem {s t : State} (h : step s = .next t) :
    t.dataMem = s.dataMem ∨ ∃ ea v, t.dataMem = (s.memWrite ea v).dataMem := by
  obtain ⟨-, ⟨-, rfl⟩ | ⟨-, -, rfl⟩ | ⟨-, u, hu, rfl⟩⟩ := step_cases h
  · exact .inl rfl
  · exact .inl rfl
  · rw [State.fetched, exec_decode_eq_applyPorts] at hu
    cases hu
    rw [State.recordExecuted_dataMem, State.applyPorts_dataMem]
    split
    · exact .inr ⟨_, _, rfl⟩
    · exact .inl rfl

/-- No step changes a data word that no address is routed to. -/
theorem step_dataMem_read_of_unreached {s t : State} {i : Nat} (hroute : ∀ ea, route s.cfg ea ≠ .data i)
    (h : step s = .next t) : t.dataMem.read i = s.dataMem.read i := by
  obtain hsame | ⟨ea, v, hstore⟩ := step_dataMem h
  · rw [hsame]
  · rw [hstore, State.memWrite_dataMem_read_of_route_ne (hroute ea)]

/-! ## Runs -/

theorem run_succ_eq_next_iff {M : Host.Core} {n : Nat} {s t : M.State} :
    M.run (n + 1) s = .next t ↔ ∃ u, M.step s = .next u ∧ M.run n u = .next t := by
  rw [Host.Core.run]
  cases M.step s <;> simp

/-- What every step keeps, a run of any length keeps. -/
theorem run_keeps {M : Host.Core} {P : M.State → Prop} (hstep : ∀ s t, P s → M.step s = .next t → P t) {n : Nat}
    {s t : M.State} (hs : P s) (h : M.run n s = .next t) : P t := by
  induction n generalizing s with
  | zero =>
    cases h
    exact hs
  | succ n ih =>
    obtain ⟨u, hu, hrest⟩ := run_succ_eq_next_iff.mp h
    exact ih (hstep s u hs hu) hrest

end Sys2Proof.Machine
end

