-- ==== Sys2Proof/Proofs/Overlap.lean ====
section
/-! Where the stack lies over the data region, the data words under it are out of reach (20_memory.md R43). -/

namespace Sys2Proof.Machine

/-- The first byte of data word `i` lies in the stack region. -/
def UnderStack (c : Config) (i : Nat) : Prop := inRegion c.stackBase c.stackSize (uint c.memStart + 4 * i)

/-- The bases are multiples of 4 (R6), so a data word whose first byte lies in the stack region lies in it whole. -/
theorem inRegion_of_underStack {c : Config} {i : Nat} {ea : Int} (hwf : c.wf = true) (hon : c.stackEnabled = true)
    (hunder : UnderStack c i) (hin : InWord c.memStart i ea) : inRegion c.stackBase c.stackSize ea := by
  simp only [Config.wf, hon, Bool.not_true, Bool.false_or, Bool.and_eq_true, beq_iff_eq] at hwf
  obtain ⟨⟨hmem, -⟩, hstack, -⟩ := hwf
  simp only [UnderStack, inRegion, InWord, uint] at hunder hin ⊢
  omega

theorem route_ne_data_of_underStack {c : Config} {i : Nat} (hwf : c.wf = true) (hon : c.stackEnabled = true)
    (hunder : UnderStack c i) (ea : Int) : route c ea ≠ .data i := by
  intro h
  obtain ⟨-, hstack, -, hin⟩ := route_eq_data_iff.mp h
  exact hstack ⟨hon, inRegion_of_underStack hwf hon hunder hin⟩

/-- Data word `i` is 0 in a run with a configuration `c`. -/
def DataWordZero (c : Config) (i : Nat) (t : State) : Prop := t.cfg = c ∧ t.dataMem.read i = 0#32

theorem step_dataWordZero {c : Config} {i : Nat} (hroute : ∀ ea, route c ea ≠ .data i) (s t : State)
    (hs : DataWordZero c i s) (h : step s = .next t) : DataWordZero c i t := by
  obtain ⟨hcfg, hzero⟩ := hs
  subst hcfg
  exact ⟨(step_program_and_cfg h).2, (step_dataMem_read_of_unreached hroute h).trans hzero⟩

/-- Settles O33: the stack answers for the whole word, so no address and no step reaches it. -/
theorem overlapGoesToStack : Obligations.OverlapGoesToStack := by
  intro s i hwf hon hlo hhi
  have hunder : UnderStack s.cfg i := ⟨hlo, hhi⟩
  have hroute := route_ne_data_of_underStack hwf hon hunder
  refine ⟨fun ea h1 h2 halign => ?_, hroute, fun t => step_dataMem_read_of_unreached hroute, fun p n t h => ?_⟩
  · exact ⟨_, route_of_inStack halign hon (inRegion_of_underStack hwf hon hunder ⟨h1, h2⟩)⟩
  · have hreset : DataWordZero s.cfg i (State.resetWith s.cfg p) := ⟨rfl, rfl⟩
    obtain ⟨-, hzero⟩ := run_keeps (M := Sys2Proof.core) (step_dataWordZero hroute) hreset h
    exact hzero

end Sys2Proof.Machine
end

