-- ==== Sys2Proof/Proofs/RoundTrip.lean ====
section
/-! Decoding and encoding are inverse to each other (30_encoding.md R61 to R75). -/

namespace Sys2Proof

/-! ## Encoding a decoded word: the selected instruction holds every field of its word -/

theorem encode_selectR (sentinel : Word) {w : Word} (hop : opcodeOf w = 0b0110011#7) :
    encode sentinel (selectR w) = w := by
  have hw := packR_fields w
  rw [hop] at hw
  unfold selectR
  split_ifs with h0 hadd h2 h5 h6 h7 h1 h3
  · rwa [h0, hadd] at hw
  · rwa [h0] at hw
  · rwa [h2] at hw
  · rwa [h5] at hw
  · rwa [h6] at hw
  · rwa [h7] at hw
  · rwa [h1] at hw
  · rwa [h3] at hw
  · have h4 : funct3Of w = 0b100#3 := by bv_omega
    rwa [h4] at hw

theorem encode_selectI (sentinel : Word) {w : Word}
    (hop : opcodeOf w = 0b0000011#7 ∨ opcodeOf w = 0b0010011#7 ∨ opcodeOf w = 0b1100111#7) :
    encode sentinel (selectI w) = w := by
  have hw := packI_fields w
  unfold selectI
  split_ifs with hlw haddi
  · rwa [hlw] at hw
  · rwa [haddi] at hw
  · have hjalr : opcodeOf w = 0b1100111#7 := (hop.resolve_left hlw).resolve_left haddi
    rwa [hjalr] at hw

theorem encode_selectS (sentinel : Word) {w : Word} (hop : opcodeOf w = 0b0100011#7) :
    encode sentinel (selectS w) = w := by
  have hw := packS_fields w
  rwa [hop] at hw

theorem encode_selectB (sentinel : Word) {w : Word} (hop : opcodeOf w = 0b1100011#7) :
    encode sentinel (selectB w) = w := by
  have hw := packB_fields w
  rw [hop] at hw
  unfold selectB
  split_ifs with h0 h1 h2 h3 h4 h5 h6
  · rwa [h0] at hw
  · rwa [h1] at hw
  · rwa [h2] at hw
  · rwa [h3] at hw
  · rwa [h4] at hw
  · rwa [h5] at hw
  · rwa [h6] at hw
  · have h7 : funct3Of w = 0b111#3 := by bv_omega
    rwa [h7] at hw

theorem encode_selectJ (sentinel : Word) {w : Word} (hop : opcodeOf w = 0b1101111#7) :
    encode sentinel (selectJ w) = w := by
  have hw := packJ_fields w
  rwa [hop] at hw

theorem encode_decode (sentinel w : Word) : encode sentinel (decode sentinel w) = w := by
  by_cases hw : w = sentinel
  · rw [hw, decode_sentinel]
    rfl
  have hop := opcode_of_classify (opcodeOf w)
  rw [decode, if_neg hw]
  cases hc : classify (opcodeOf w) <;> rw [hc] at hop
  case r => exact encode_selectR sentinel hop
  case i => exact encode_selectI sentinel hop
  case s => exact encode_selectS sentinel hop
  case b => exact encode_selectB sentinel hop
  case j => exact encode_selectJ sentinel hop
  case invalid => rfl

/-- Settles O10: each format is put together again from the fields its instruction holds. -/
theorem encodeOfDecode : Obligations.EncodeOfDecode := encode_decode

/-! ## Decoding an encoded instruction -/

/-- The classifier's last answer is for the opcodes outside the table alone (R63, R73). -/
theorem classify_eq_invalid_iff {op : BitVec 7} : classify op = .invalid ↔ op ∉ tableOpcodes := by
  refine ⟨not_mem_tableOpcodes_of_classify, fun h => ?_⟩
  simp only [tableOpcodes, List.mem_cons, List.not_mem_nil, or_false, not_or] at h
  obtain ⟨hr, hlw, haddi, hjalr, hs, hb, hj⟩ := h
  rw [classify, if_neg hr, if_neg hlw, if_neg haddi, if_neg hjalr, if_neg hs, if_neg hb, if_neg hj]

/-- The opcode of the encoded word leads the classifier to its format, whose fields and immediate are the operands. -/
theorem decode_encode {sentinel : Word} {i : Instr} (hwf : i.WellFormed) (hne : encode sentinel i ≠ sentinel) :
    decode sentinel (encode sentinel i) = i := by
  rw [decode, if_neg hne]
  cases i with
  | halt => exact absurd rfl hne
  | invalid w =>
    have hop : opcodeOf w ∉ tableOpcodes := by simpa [Instr.WellFormed, Instr.wellFormed, opcodeOf] using hwf
    simp [encode, classify_eq_invalid_iff.mpr hop]
  | add | slt | sra | orReg | andReg | rzero001 | rzero011 | rzero100 =>
    simp [encode, classify, selectR]
  | sub =>
    have hfunct7 := bne_iff_ne.mp hwf
    simp [encode, classify, selectR, hfunct7]
  | lw | addi | jalr => simp [encode, classify, selectI]
  | sw => simp [encode, classify, selectS]
  | beq _ _ imm | bne _ _ imm | bnop010 _ _ imm | bnop011 _ _ imm | bnop100 _ _ imm | bnop101 _ _ imm
  | bnop110 _ _ imm | bnop111 _ _ imm =>
    have heven : imm.getLsbD 0 = false := (Bool.not_eq_true' _).mp hwf
    simp [encode, classify, selectB, immB_packB imm heven]
  | jal _ imm =>
    have heven : imm.getLsbD 0 = false := (Bool.not_eq_true' _).mp hwf
    simp [encode, classify, selectJ, immJ_packJ imm heven]

/-- Settles O9: HALT's word is the sentinel; any other instruction is read back from the fields of its format. -/
theorem decodeOfEncode : Obligations.DecodeOfEncode := by
  rintro sentinel i hwf (rfl | hne)
  · exact decode_sentinel sentinel
  · exact decode_encode hwf hne

end Sys2Proof
end

