-- ==== Sys2Proof/Proofs/Immediates.lean ====
section
/-! The four immediates (30_encoding.md R65 to R68): their bits, their ranges, and the instructions that use them. A decoded
instruction uses the immediate of its word because its word is put together from the immediate it holds. -/

namespace Sys2Proof

open Machine (toSigned toSigned_bounds toSigned_eq_of_leading_bit)

/-! ## Bits and ranges -/

theorem getLsbD_immI (w : Word) {k : Nat} (hk : k < 12) : (immI w).getLsbD k = w.getLsbD (20 + k) := by
  rw [immI, BitVec.getLsbD_extractLsb', decide_eq_true hk, Bool.true_and]

/-- The bits of the S-immediate (R66). -/
theorem getLsbD_immS (w : Word) (k : Nat) : (immS w).getLsbD k =
    if k < 5 then w.getLsbD (7 + k) else if k < 12 then w.getLsbD (20 + k) else false := by
  unfold immS
  erw [BitVec.getLsbD_append]
  rcases Nat.lt_or_ge k 5 with hlow | hhigh
  · simp [hlow]
  · have hlow : ¬k < 5 := by omega
    have hbit : 25 + (k - 5) = 20 + k := by omega
    have hwidth : k - 5 < 7 ↔ k < 12 := by omega
    simp [hlow, hbit, hwidth]

/-- An immediate with bit 0 clear is an even number, so it stays below the largest value of its width. -/
theorem toSigned_even {n : Nat} {f : BitVec (n + 1)} (h : f.getLsbD 0 = false) : toSigned f % 2 = 0 := by
  have hnat : f.toNat % 2 = 0 := by simpa [BitVec.getLsbD, Nat.testBit_zero] using h
  have hpow : (2 : Int) ^ (n + 1) = 2 * 2 ^ n := pow_succ' 2 n
  rw [toSigned_eq_of_leading_bit]
  split <;> omega

/-! ## Use by the decoded instructions -/

theorem eq_immI_of_encode {sentinel w : Word} {i : Instr} {imm : BitVec 12} {r1 : Reg} {f : BitVec 3} {d : Reg}
    {op : BitVec 7} (h : decode sentinel w = i) (he : encode sentinel i = packI imm r1 f d op) : imm = immI w := by
  rw [← encode_decode sentinel w, h, he, immI_packI]

theorem eq_immB_of_encode {sentinel w : Word} {i : Instr} {imm : BitVec 13} {r2 r1 : Reg} {f : BitVec 3}
    {op : BitVec 7} (h : decode sentinel w = i) (he : encode sentinel i = packB imm r2 r1 f op)
    (heven : i.WellFormed → imm.getLsbD 0 = false) : imm = immB w := by
  have hi : i.WellFormed := h ▸ decode_wellFormed sentinel w
  rw [← encode_decode sentinel w, h, he, immB_packB imm (heven hi)]

/-- Settles O3: an I-immediate is a field of the word. -/
theorem iImmediateBits : Obligations.IImmediateBits := by
  intro w
  have ⟨hlo, hhi⟩ := toSigned_bounds (immI w)
  refine ⟨fun k => getLsbD_immI w, by omega, by omega, fun sentinel f rd rs1 imm huse => ?_⟩
  rcases huse with h | h | h <;> exact eq_immI_of_encode h rfl

/-- Settles O4: an S-immediate is two fields of the word. -/
theorem sImmediateBits : Obligations.SImmediateBits := by
  intro w
  have ⟨hlo, hhi⟩ := toSigned_bounds (immS w)
  refine ⟨fun k hk => ?_, fun k hk => ?_, by omega, by omega, fun sentinel f rs1 rs2 imm h => ?_⟩
  · rw [getLsbD_immS, if_pos hk]
  · rw [getLsbD_immS, if_neg (by omega), if_pos (by omega), ← Nat.add_assoc]
  · rw [← encode_decode sentinel w, h]
    exact (immS_packS ..).symm

/-- Settles O5: the bits of a B-immediate one by one, and its use by all eight branches. -/
theorem bImmediateBits : Obligations.BImmediateBits := by
  intro w
  have ⟨hlo, hhi⟩ := toSigned_bounds (immB w)
  have heven := toSigned_even (immB_even w)
  refine ⟨getLsbD_immB w 12, getLsbD_immB w 11, fun k hk => ?_, fun k hk => ?_, immB_even w, heven, by omega, by omega,
    fun sentinel rs1 rs2 imm huse => ?_⟩
  · rw [getLsbD_immB, if_neg (by omega), if_neg (by omega), if_pos (by omega)]
    congr 1
    omega
  · rw [getLsbD_immB, if_neg (by omega), if_pos (by omega)]
    congr 1
    omega
  · simp only [List.mem_cons, List.not_mem_nil, or_false] at huse
    rcases huse with h | h | h | h | h | h | h | h <;> exact eq_immB_of_encode h rfl (Bool.not_eq_true' _).mp

/-- Settles O6: the bits of a J-immediate one by one, and its use by JAL. -/
theorem jImmediateBits : Obligations.JImmediateBits := by
  intro w
  have ⟨hlo, hhi⟩ := toSigned_bounds (immJ w)
  have heven := toSigned_even (immJ_even w)
  refine ⟨getLsbD_immJ w 20, fun k hk => ?_, getLsbD_immJ w 11, fun k hk => ?_, immJ_even w, heven, by omega, by omega,
    fun sentinel rd imm h => ?_⟩
  · rw [getLsbD_immJ, if_neg (by omega), if_neg (by omega), if_neg (by omega), if_pos (by omega)]
  · rw [getLsbD_immJ, if_neg (by omega), if_pos (by omega)]
    congr 1
    omega
  · have hwf : (Instr.jal rd imm).WellFormed := h ▸ decode_wellFormed sentinel w
    have himm : imm.getLsbD 0 = false := (Bool.not_eq_true' _).mp hwf
    rw [← encode_decode sentinel w, h]
    exact (immJ_packJ imm himm rd _).symm

end Sys2Proof
end

