-- ==== Sys2Proof/Proofs/EveryWord.lean ====
section
/-! Every word is exactly one instruction, the sentinel tested first (30_encoding.md R64, R73, R74). -/

namespace Sys2Proof

theorem decode_eq_invalid {sentinel w : Word} (hne : w ≠ sentinel) (hop : opcodeOf w ∉ tableOpcodes) :
    decode sentinel w = .invalid w := by
  rw [decode, if_neg hne, classify_eq_invalid_iff.mpr hop]

theorem decode_eq_invalid_iff {sentinel w : Word} :
    (∃ v, decode sentinel w = .invalid v) ↔ w ≠ sentinel ∧ opcodeOf w ∉ tableOpcodes := by
  constructor
  · rintro ⟨v, hv⟩
    refine ⟨fun heq => ?_, (decode_operandsFrom sentinel w).invalid v hv⟩
    cases hv.symm.trans (decode_eq_halt_iff.mpr heq)
  · rintro ⟨hne, hop⟩
    exact ⟨w, decode_eq_invalid hne hop⟩

theorem decode_admitted (sentinel w : Word) : (decode sentinel w).admitted sentinel = true := by
  have hfree : decode sentinel w = .halt ∨ w ≠ sentinel := by
    rw [decode_eq_halt_iff]
    exact em _
  simpa [Instr.admitted, encode_decode] using ⟨decode_wellFormed sentinel w, hfree⟩

/-- Settles O7: an executed word is the update by its output ports, so it always answers a next state. -/
theorem everyWordIsExactlyOneInstruction : Obligations.EveryWordIsExactlyOneInstruction := fun sentinel w =>
  ⟨decode_eq_halt_iff, decode_eq_invalid_iff, decode_admitted sentinel w,
    fun s => ⟨_, Machine.exec_decode_eq_applyPorts sentinel w s⟩⟩

/-- Settles O8: with the sentinel out of the way, the word has the opcode of category B and every other field 0. -/
theorem sentinelIsTestedFirst : Obligations.SentinelIsTestedFirst := by
  refine ⟨fun _ _ => decode_eq_halt_iff, rfl, fun sentinel hne => ?_⟩
  exact if_neg hne.symm

end Sys2Proof
end

