-- ==== Sys2Proof/Proofs/StepOutcomes.lean ====
section
/-! What a Running state's step answers, in the order of its tests (60_exceptions.md R203): the two stops before the fetch
(40_step.md R81, R82), or the fetched word's execution and its record (R83 to R86). And the host's bound around it (R90). -/

namespace Sys2Proof.Machine

theorem step_of_fetchFaults {s : State} (hrun : s.status = .running) (hin : ¬s.outsideProgram) (hfault : s.fetchFaults) :
    step s = .next (s.stop .faultedFetchMisaligned) := by
  simp only [step, hrun, State.stopBeforeFetch, if_neg hin, if_pos hfault]

/-- A state that fetches a word passes both tests. -/
theorem Fetches.stopBeforeFetch {s : State} {w : Word} (h : Fetches s w) : s.stopBeforeFetch = none := by
  obtain ⟨-, hword, halign⟩ := h
  obtain ⟨hlt, -⟩ := List.getElem?_eq_some_iff.mp hword
  have hin : ¬s.outsideProgram := by simp only [State.outsideProgram]; omega
  have hok : ¬s.fetchFaults := by
    rintro ⟨hlow, hpolicy⟩
    obtain haligned | htruncate := halign
    · exact hlow ((lowBits_zero_iff s.pc).mpr haligned)
    · cases hpolicy.symm.trans htruncate
  rw [State.stopBeforeFetch, if_neg hin, if_neg hok]

theorem step_of_fetches {s : State} {w : Word} (h : Fetches s w) :
    step s = withRecord (exec (decode s.cfg.haltSentinel w) s) := by
  have hstop := h.stopBeforeFetch
  obtain ⟨hrun, hword, -⟩ := h
  simp only [step, hrun, hstop, State.fetched, State.fetchWord_eq hword]
  rfl

/-- Settles O38. -/
theorem stepRunsDecodedInstruction : Obligations.StepRunsDecodedInstruction :=
  fun _ _ => step_of_fetches

/-- Settles O39: the range test is the first; an empty program has no word at the reset pc. -/
theorem outsideProgramEndsRun : Obligations.OutsideProgramEndsRun :=
  ⟨fun s hrun hout => ⟨_, step_of_outsideProgram hrun hout, s.stop_onlyStops .ended⟩,
    fun _ => ⟨_, step_of_outsideProgram rfl (Nat.zero_le _), rfl, rfl⟩⟩

/-- A Running pc inside the program fetches the word that contains it, unless the fetch faults. -/
theorem fetches_of_not_fetchFaults {s : State} (hrun : s.status = .running) (hin : ¬s.outsideProgram)
    (hok : ¬s.fetchFaults) : Fetches s s.fetchWord := by
  have hlt : s.pc.toNat / 4 < s.program.length := by simp only [State.outsideProgram] at hin; omega
  have hword := List.getElem?_eq_getElem hlt
  refine ⟨hrun, by rw [State.fetchWord_eq hword, hword], ?_⟩
  rw [← lowBits_zero_iff, or_iff_not_imp_left]
  intro hlow
  cases hpolicy : s.cfg.misalignedFetchPolicy with
  | fault => exact absurd ⟨hlow, hpolicy⟩ hok
  | truncate => rfl

/-- Settles O40: the policy alone decides whether the fetch faults. -/
theorem misalignedFetchFollowsPolicy : Obligations.MisalignedFetchFollowsPolicy := by
  intro s hrun hlt hmis
  have hin : ¬s.outsideProgram := not_le.mpr hlt
  refine ⟨fun heven => ?_, fun hpolicy => ?_, fun hpolicy => ?_⟩
  · have hmod : s.pc.toNat % 2 = 0 := by simpa [BitVec.getLsbD, Nat.testBit_zero] using heven
    omega
  · have hfault : s.fetchFaults := ⟨mt (lowBits_zero_iff s.pc).mp hmis, hpolicy⟩
    exact ⟨_, step_of_fetchFaults hrun hin hfault, s.stop_onlyStops _⟩
  · have hok : ¬s.fetchFaults := fun ⟨_, hfault⟩ => by cases hfault.symm.trans hpolicy
    have hfetch := fetches_of_not_fetchFaults hrun hin hok
    have ⟨_, hword, _⟩ := hfetch
    exact ⟨_, hword, step_of_fetches hfetch⟩

/-! ## Which states step -/

/-- The tests before the fetch stop with a next state, and every fetched word is executed to one (R74). -/
theorem step_of_running {s : State} (hrun : s.status = .running) : ∃ t, step s = .next t := by
  by_cases hout : s.outsideProgram
  · exact ⟨_, step_of_outsideProgram hrun hout⟩
  by_cases hfault : s.fetchFaults
  · exact ⟨_, step_of_fetchFaults hrun hout hfault⟩
  · rw [step_of_fetches (fetches_of_not_fetchFaults hrun hout hfault), exec_decode_eq_applyPorts]
    exact ⟨_, rfl⟩

theorem step_of_not_running {s : State} (h : s.status ≠ .running) : step s = .fault .notRunning := by
  unfold step
  cases hst : s.status with
  | running => exact absurd hst h
  | halted | ended | faultedFetchMisaligned | refusedDecodeError => rfl

/-- Settles O42. -/
theorem exactlyRunningStatesStep : Obligations.ExactlyRunningStatesStep :=
  fun _ => ⟨step_of_running, step_of_not_running⟩

/-! ## The host's bound (R90) -/

theorem State.atStepLimit_iff {s : State} :
    s.atStepLimit = true ↔ ∃ n, s.cfg.maxSteps = some n ∧ n ≤ s.trace.length := by
  unfold State.atStepLimit
  cases s.cfg.maxSteps <;> simp

theorem hostStep_of_below_limit {s : State} (h : ¬s.atStepLimit = true) : hostStep s = step s :=
  if_neg fun ⟨_, hlimit⟩ => h hlimit

theorem hostStep_of_limit {s : State} (hrun : s.status = .running) (h : s.atStepLimit = true) :
    hostStep s = .fault .stepLimit := if_pos ⟨hrun, h⟩

theorem State.normalEnd_of_running {s : State} (hrun : s.status = .running) : s.normalEnd = false := by
  rw [State.normalEnd, hrun]
  rfl

/-- Settles O59: below the bound the host takes the core's step; at it the host answers its own fault, where the core would
step on. -/
theorem stepLimitIsTheHosts : Obligations.StepLimitIsTheHosts := by
  refine fun s => ⟨fun hnone => ?_, fun n hmax hlt => ?_, fun n hmax hrun hle => ?_⟩
  · exact hostStep_of_below_limit (by simp [State.atStepLimit_iff, hnone])
  · exact hostStep_of_below_limit (by simp [State.atStepLimit_iff, hmax, hlt])
  · have hlimit := hostStep_of_limit hrun (State.atStepLimit_iff.mpr ⟨n, hmax, hle⟩)
    exact ⟨fun t => by simp [hlimit], State.normalEnd_of_running hrun, step_of_running hrun⟩

end Sys2Proof.Machine
end

