-- ==== Sys2Proof/Proofs/HaltInvalid.lean ====
section
/-! HALT and INVALID, alone and as a step (40_step.md R84, R87, R88). -/

namespace Sys2Proof.Machine

/-! ## A step from its instruction's next state -/

/-- The appended record shows the state it is made from (R86). -/
theorem State.shows_self (s : State) : Shows ⟨s.pc, s.visibleRegs⟩ s := ⟨rfl, s.visibleRegs_get⟩

/-- A step whose instruction goes on, or halts, appends the record. -/
theorem step_of_executed {s u : State} {w : Word} (hf : Fetches s w)
    (hu : exec (decode s.cfg.haltSentinel w) s = .next u) (hst : u.status = .running ∨ u.status = .halted) :
    step s = .next u.record := by
  have hrec : u.recordExecuted = u.record := by
    obtain ⟨-, hrec⟩ | ⟨⟨hnrun, hnhalt⟩, -⟩ := u.recordExecuted_cases
    · exact hrec
    · exact absurd hst (not_or.mpr ⟨hnrun, hnhalt⟩)
  rw [step_of_fetches hf, hu, withRecord, hrec]

/-- A step whose instruction refuses the word appends nothing. -/
theorem step_of_refused {s u : State} {w : Word} (hf : Fetches s w)
    (hu : exec (decode s.cfg.haltSentinel w) s = .next u) (hst : u.status = .refusedDecodeError) :
    step s = .next u := by
  have hrec : u.recordExecuted = u := by
    obtain ⟨hexec, -⟩ | ⟨-, hrec⟩ := u.recordExecuted_cases
    · simp [hst] at hexec
    · exact hrec
  rw [step_of_fetches hf, hu, withRecord, hrec]

/-! ## HALT -/

theorem exec_halt (s : State) : exec .halt s = .next (s.stop .halted) := rfl

/-- Settles O27: HALT's record is of the stopped state, whose pc and registers are those before the step. -/
theorem haltStopsAndRecordsItself : Obligations.HaltStopsAndRecordsItself := by
  refine ⟨decode_sentinel, fun s => ⟨_, exec_halt s, s.stop_onlyStops _⟩, fun s hf => ?_⟩
  have hexec : exec (decode s.cfg.haltSentinel s.cfg.haltSentinel) s = .next (s.stop .halted) := by
    rw [decode_sentinel, exec_halt]
  obtain ⟨hst, hpc, hregs, hmem, hprog, hcfg, -⟩ := s.stop_onlyStops .halted
  exact ⟨_, _, step_of_executed hf hexec (.inr hst), hst, hpc, hregs, hmem, hprog, hcfg, rfl, s.shows_self⟩

/-! ## INVALID -/

theorem exec_invalid_of_nop (w : Word) {s : State} (h : s.cfg.invalidOpcodePolicy = .nop) :
    exec (.invalid w) s = .next (s.setPc (s.pc + 4#32)) := by
  simp only [exec, execInvalid, h, State.advance, State.pcPlus_four]

theorem exec_invalid_of_decodeError (w : Word) {s : State} (h : s.cfg.invalidOpcodePolicy = .decodeError) :
    exec (.invalid w) s = .next (s.stop .refusedDecodeError) := by
  simp only [exec, execInvalid, h]

/-- Settles O28: under the Nop policy INVALID is a jump to the next word, and the run goes on. -/
theorem invalidIsNoOpUnderNopPolicy : Obligations.InvalidIsNoOpUnderNopPolicy := by
  refine ⟨fun _ _ => decode_eq_invalid, fun w s hnop => ⟨_, exec_invalid_of_nop w hnop, s.setPc_onlyJumps _⟩,
    fun w s hf hne hop hnop => ?_⟩
  have hexec := exec_invalid_of_nop w hnop
  rw [← decode_eq_invalid hne hop] at hexec
  obtain ⟨hpc, hregs, hmem, hprog, hcfg, hst, -⟩ := s.setPc_onlyJumps (s.pc + 4#32)
  have hrun := hst.trans hf.1
  exact ⟨_, _, step_of_executed hf hexec (.inl hrun), hpc, hregs, hmem, hrun, hprog, hcfg, rfl, State.shows_self _⟩

/-- Settles O29: under the DecodeError policy INVALID only stops. -/
theorem invalidStopsUnderDecodeErrorPolicy : Obligations.InvalidStopsUnderDecodeErrorPolicy := by
  refine ⟨fun _ _ => decode_eq_invalid,
    fun w s herr => ⟨_, exec_invalid_of_decodeError w herr, s.stop_onlyStops _⟩, fun w s hf hne hop herr => ?_⟩
  have hexec := exec_invalid_of_decodeError w herr
  rw [← decode_eq_invalid hne hop] at hexec
  exact ⟨_, step_of_refused hf hexec rfl, s.stop_onlyStops _⟩

end Sys2Proof.Machine
end

