-- ==== Sys2Proof/Proofs/StepUpdate.lean ====
section
/-! A step writes at most the register of its rd field and, for SW alone, the word the router names (40_step.md R89). -/

namespace Sys2Proof.Machine

/-- SW's operands are the fields of its word (R66). -/
theorem decode_sw_operands {sentinel w : Word} {f : BitVec 3} {rs1 rs2 : Reg} {imm : BitVec 12}
    (h : decode sentinel w = .sw f rs1 rs2 imm) : rs1 = rs1Of w ∧ imm = immS w := by
  have hw := encode_decode sentinel w
  rw [h] at hw
  subst hw
  exact ⟨(rs1Of_packS ..).symm, (immS_packS ..).symm⟩

/-- A store leaves a stack word alone that its address is not routed to, in canonical form or not. -/
theorem State.memWrite_stackMem_read_of_route_ne {s : State} {ea : Int} {i : Nat} (h : route s.cfg ea ≠ .stack i)
    (v : Word) : (s.memWrite ea v).stackMem.read i = s.stackMem.read i := by
  cases hk : route s.cfg ea with
  | stack k =>
    have hne : k ≠ i := fun heq => h (heq ▸ hk)
    rw [State.memWrite_of_stack hk]
    exact Memory.read_write_ne _ hne v
  | data k =>
    rw [State.memWrite_of_data hk]
    rfl
  | unmapped => rw [State.memWrite_of_unmapped hk]

/-- The store port is enabled for SW alone (R38). -/
theorem datapath_memWe_eq_false {c : Config} {p : PortsIn}
    (h : ∀ f rs1 rs2 imm, decode c.haltSentinel p.instr ≠ .sw f rs1 rs2 imm) : (datapath c p).memWe = false := by
  have hlisted := datapath_portsAsListed c p
  generalize decode c.haltSentinel p.instr = i at h hlisted
  cases i with
  | sw f rs1 rs2 imm => exact absurd rfl (h f rs1 rs2 imm)
  | invalid =>
    obtain ⟨-, -, hwe, -⟩ := hlisted
    exact hwe
  | _ =>
    obtain ⟨-, -, hwe⟩ := hlisted
    exact hwe

/-- No form but SW changes a store. -/
theorem exec_stores_of_ne_sw {sentinel w : Word} {s t : State}
    (h : ∀ f rs1 rs2 imm, decode sentinel w ≠ .sw f rs1 rs2 imm) (ht : exec (decode sentinel w) s = .next t) :
    t.dataMem = s.dataMem ∧ t.stackMem = s.stackMem := by
  have hwe : (s.portsOutFor sentinel w).memWe = false := datapath_memWe_eq_false h
  rw [exec_decode_eq_applyPorts] at ht
  cases ht
  simp [hwe]

/-- An SW changes no word but the one its address is routed to. -/
theorem exec_sw_other_words {f : BitVec 3} {rs1 rs2 : Reg} {imm : BitVec 12} {s t : State}
    (ht : exec (.sw f rs1 rs2 imm) s = .next t) :
    (∀ i, route s.cfg (effAddr (s.readReg rs1) imm) ≠ .data i → t.dataMem.read i = s.dataMem.read i) ∧
    ∀ i, route s.cfg (effAddr (s.readReg rs1) imm) ≠ .stack i → t.stackMem.read i = s.stackMem.read i := by
  cases ht
  exact ⟨fun _ hi => State.memWrite_dataMem_read_of_route_ne hi _,
    fun _ hi => State.memWrite_stackMem_read_of_route_ne hi _⟩

/-- What R89 says of a state after the fetched word. -/
def UpdatesAtMostOnce (s t : State) : Prop :=
  RegsSameBut (some (rdOf s.fetchWord)) s t ∧
  (∀ f rs1 rs2 imm, s.fetched = .sw f rs1 rs2 imm →
    (∀ i, route s.cfg (effAddr (s.readReg (rs1Of s.fetchWord)) (immS s.fetchWord)) ≠ .data i →
      t.dataMem.read i = s.dataMem.read i) ∧
    ∀ i, route s.cfg (effAddr (s.readReg (rs1Of s.fetchWord)) (immS s.fetchWord)) ≠ .stack i →
      t.stackMem.read i = s.stackMem.read i) ∧
  ((∀ f rs1 rs2 imm, s.fetched ≠ .sw f rs1 rs2 imm) → t.dataMem = s.dataMem ∧ t.stackMem = s.stackMem)

theorem State.stop_updatesAtMostOnce (s : State) (st : Status) : UpdatesAtMostOnce s (s.stop st) :=
  ⟨RegsSameBut.of_x rfl rfl _, fun _ _ _ _ _ => ⟨fun _ _ => rfl, fun _ _ => rfl⟩, fun _ => ⟨rfl, rfl⟩⟩

theorem UpdatesAtMostOnce.recordExecuted {s t : State} (h : UpdatesAtMostOnce s t) :
    UpdatesAtMostOnce s t.recordExecuted := by
  simpa [UpdatesAtMostOnce, RegsSameBut] using h

theorem exec_updatesAtMostOnce {s t : State} (h : exec s.fetched s = .next t) : UpdatesAtMostOnce s t := by
  obtain ⟨hregs, -⟩ := registerFilePorts s.cfg.haltSentinel s.fetchWord s t h
  refine ⟨hregs, fun f rs1 rs2 imm hsw => ?_, fun hne => exec_stores_of_ne_sw hne h⟩
  obtain ⟨hrs1, himm⟩ := decode_sw_operands hsw
  rw [hsw] at h
  subst hrs1 himm
  exact exec_sw_other_words h

/-- Settles O44: a stop updates nothing, and the record no register and no store. -/
theorem stepMakesAtMostOneUpdate : Obligations.StepMakesAtMostOneUpdate := by
  intro s t h
  obtain ⟨-, ⟨-, rfl⟩ | ⟨-, -, rfl⟩ | ⟨-, u, hu, rfl⟩⟩ := step_cases h
  · exact s.stop_updatesAtMostOnce .ended
  · exact s.stop_updatesAtMostOnce .faultedFetchMisaligned
  · exact (exec_updatesAtMostOnce hu).recordExecuted

end Sys2Proof.Machine
end

