-- ==== Sys2Proof/Proofs/TraceRecords.lean ====
section
/-! Every executed step appends one record, and a run over straight-line words one for each of them (40_step.md R86). -/

namespace Sys2Proof.Machine

/-! ## One step -/

/-- A step appends its record exactly where it goes on or halts. -/
theorem step_trace {s t : State} (h : step s = .next t) :
    ((t.status = .running ∨ t.status = .halted) ∧ ∃ r, t.trace = s.trace ++ [r] ∧ Shows r t) ∨
    ((t.status ≠ .running ∧ t.status ≠ .halted) ∧ t.trace = s.trace) := by
  obtain ⟨-, ⟨-, rfl⟩ | ⟨-, -, rfl⟩ | ⟨-, u, hu, rfl⟩⟩ := step_cases h
  · exact .inr ⟨⟨nofun, nofun⟩, rfl⟩
  · exact .inr ⟨⟨nofun, nofun⟩, rfl⟩
  · obtain ⟨-, -, htrace, -⟩ := exec_run hu
    obtain ⟨hst, hrec⟩ | ⟨hst, hrec⟩ := u.recordExecuted_cases
    · rw [hrec]
      exact .inl ⟨hst, _, by rw [State.record_trace, htrace], u.shows_self⟩
    · rw [hrec]
      exact .inr ⟨hst, htrace⟩

/-! ## Straight-line words -/

/-- The instructions that go on to the next word: all but HALT, the control transfers, and INVALID under the DecodeError
policy. -/
def FallsThrough (c : Config) (i : Instr) : Prop :=
  match i with
  | .halt | .jalr _ _ _ _ | .beq _ _ _ | .bne _ _ _ | .jal _ _ => False
  | .invalid _ => c.invalidOpcodePolicy = .nop
  | _ => True

theorem exec_of_fallsThrough {i : Instr} {s : State} (h : FallsThrough s.cfg i) :
    ∃ t, exec i s = .next t ∧ t.pc = s.pc + 4#32 ∧ RunSame s t := by
  cases i with
  | halt | jalr | beq | bne | jal => exact h.elim
  | invalid w => exact ⟨_, exec_invalid_of_nop w h, rfl, rfl, rfl, rfl, rfl⟩
  | add rd | sub _ rd | slt _ rd | sra _ rd | orReg _ rd | andReg _ rd | rzero001 _ rd | rzero011 _ rd | rzero100 _ rd
  | lw _ rd | addi _ rd =>
    obtain ⟨t, ht, -, -, hpc, -, hrun⟩ := s.finish_writesRd rd _
    exact ⟨t, ht, hpc, hrun⟩
  | sw => exact ⟨_, rfl, by simp [State.advance], by simp [RunSame, State.advance]⟩
  | bnop010 _ _ imm | bnop011 _ _ imm | bnop100 _ _ imm | bnop101 _ _ imm | bnop110 _ _ imm | bnop111 _ _ imm =>
    obtain ⟨t, ht, hpc, -, -, hrun⟩ := s.branch_onlyJumps false imm
    exact ⟨t, ht, hpc, hrun⟩

/-- BEQ and BNE have funct3 000 and 001 (R71). -/
theorem funct3Of_of_decode_beq {sentinel w : Word} {rs1 rs2 : Reg} {imm : BitVec 13}
    (h : decode sentinel w = .beq rs1 rs2 imm) : funct3Of w = 0b000#3 := by
  rw [← encode_decode sentinel w, h]
  exact funct3Of_packB ..

theorem funct3Of_of_decode_bne {sentinel w : Word} {rs1 rs2 : Reg} {imm : BitVec 13}
    (h : decode sentinel w = .bne rs1 rs2 imm) : funct3Of w = 0b001#3 := by
  rw [← encode_decode sentinel w, h]
  exact funct3Of_packB ..

/-- The opcodes a straight-line word can have. -/
theorem StraightLine.opcode {c : Config} {w : Word} (h : StraightLine c w) :
    opcodeOf w ≠ 0b1100111#7 ∧ opcodeOf w ≠ 0b1101111#7 ∧
    (opcodeOf w = 0b1100011#7 → funct3Of w ≠ 0b000#3 ∧ funct3Of w ≠ 0b001#3) ∧
    (opcodeOf w ∉ tableOpcodes → c.invalidOpcodePolicy = .nop) := by
  have hop : opcodeOf w ∈ [0b0110011#7, 0b0000011#7, 0b0010011#7, 0b0100011#7] ∨
      (opcodeOf w = 0b1100011#7 ∧ funct3Of w ≠ 0b000#3 ∧ funct3Of w ≠ 0b001#3) ∨
      (opcodeOf w ∉ tableOpcodes ∧ c.invalidOpcodePolicy = .nop) := h.2
  obtain hplain | ⟨hbranch, h3⟩ | ⟨hout, hnop⟩ := hop
  · generalize opcodeOf w = op at hplain ⊢
    simp only [List.mem_cons, List.not_mem_nil, or_false] at hplain
    obtain rfl | rfl | rfl | rfl := hplain <;> simp [tableOpcodes]
  · simp [hbranch, h3, tableOpcodes]
  · simp only [tableOpcodes, List.mem_cons, List.not_mem_nil, or_false, not_or] at hout
    simp [hout, hnop]

theorem StraightLine.fallsThrough {c : Config} {w : Word} (h : StraightLine c w) :
    FallsThrough c (decode c.haltSentinel w) := by
  obtain ⟨hjalr, hjal, hbranch, hinvalid⟩ := h.opcode
  obtain ⟨hne, -⟩ := h
  obtain ⟨-, -, -, hop, hout⟩ := decode_operandsFrom c.haltSentinel w
  cases hi : decode c.haltSentinel w with
  | halt => exact hne (decode_eq_halt_iff.mp hi)
  | jalr => exact hjalr (hop _ (by rw [hi]; rfl))
  | jal => exact hjal (hop _ (by rw [hi]; rfl))
  | beq =>
    obtain ⟨hbeq, -⟩ := hbranch (hop _ (by rw [hi]; rfl))
    exact hbeq (funct3Of_of_decode_beq hi)
  | bne =>
    obtain ⟨-, hbne⟩ := hbranch (hop _ (by rw [hi]; rfl))
    exact hbne (funct3Of_of_decode_bne hi)
  | invalid v => exact hinvalid (hout v hi)
  | _ => trivial

/-- A step over a straight-line word goes on at the next word and appends one record. -/
theorem step_of_straightLine {s : State} {w : Word} (hf : Fetches s w) (hw : StraightLine s.cfg w) :
    ∃ t, step s = .next t ∧ t.pc = s.pc + 4#32 ∧ t.program = s.program ∧ t.cfg = s.cfg ∧ t.status = .running ∧
      t.trace.length = s.trace.length + 1 := by
  obtain ⟨u, hu, hpc, hprog, hcfg, hst, htrace⟩ := exec_of_fallsThrough hw.fallsThrough
  have hrun := hst.trans hf.1
  exact ⟨_, step_of_executed hf hu (.inl hrun), hpc, hprog, hcfg, hrun, by simp [htrace]⟩

/-! ## The run to the end of the program -/

/-- `n` words before the end of a program whose words from the pc on are all straight-line. -/
structure StraightLineLeft (n : Nat) (s : State) : Prop where
  running : s.status = .running
  pc : s.pc.toNat + 4 * n = 4 * s.program.length
  length : s.program.length ≤ Config.maxProgLen
  straight : ∀ (i : Nat) (w : Word), s.pc.toNat / 4 ≤ i → s.program[i]? = some w → StraightLine s.cfg w

/-- A step takes the first of the words left. -/
theorem StraightLineLeft.step_next {n : Nat} {s : State} (h : StraightLineLeft (n + 1) s) :
    ∃ t, step s = .next t ∧ StraightLineLeft n t ∧ t.program = s.program ∧
      t.trace.length = s.trace.length + 1 := by
  obtain ⟨hrun, hpc, hlen, hstraight⟩ := h
  have hlt : s.pc.toNat / 4 < s.program.length := by omega
  have hword := List.getElem?_eq_getElem hlt
  obtain ⟨t, ht, hpc', hprog, hcfg, hrun', htrace⟩ :=
    step_of_straightLine ⟨hrun, hword, .inl (by omega)⟩ (hstraight _ _ le_rfl hword)
  have hmax : s.program.length ≤ 2 ^ 29 - 512 := hlen
  have hnat : t.pc.toNat = s.pc.toNat + 4 := by
    rw [hpc']
    exact BitVec.toNat_add_of_lt (show s.pc.toNat + 4 < 2 ^ 32 by omega)
  refine ⟨t, ht, ⟨hrun', by rw [hprog]; omega, hprog ▸ hlen, fun i w hi hw => ?_⟩, hprog, htrace⟩
  rw [hcfg]
  exact hstraight i w (by omega) (hprog ▸ hw)

/-- One step for each word left, and one that ends the run. -/
theorem StraightLineLeft.run {n : Nat} {s : State} (h : StraightLineLeft n s) :
    ∃ t : State, Host.Core.run Sys2Proof.core (n + 1) s = .next t ∧ t.status = .ended ∧
      t.pc.toNat = 4 * s.program.length ∧ t.trace.length = s.trace.length + n := by
  induction n generalizing s with
  | zero =>
    have hpc : s.pc.toNat = 4 * s.program.length := h.pc
    have hstep := step_of_outsideProgram h.running hpc.ge
    exact ⟨_, run_succ_eq_next_iff.mpr ⟨_, hstep, rfl⟩, rfl, hpc, rfl⟩
  | succ n ih =>
    obtain ⟨u, hu, hleft, hprog, htrace⟩ := h.step_next
    obtain ⟨t, ht, hended, hpc, htrace'⟩ := ih hleft
    exact ⟨t, run_succ_eq_next_iff.mpr ⟨u, hu, ht⟩, hended, hprog ▸ hpc, by omega⟩

/-- Settles O41: `step_trace` for one step, and an induction on the words left for the run. -/
theorem executedStepAppendsOneRecord : Obligations.ExecutedStepAppendsOneRecord := by
  refine ⟨fun s t h => ?_, fun s hrun halign hle hlen hstraight => ?_⟩
  · obtain ⟨hst, hr⟩ | ⟨⟨hnrun, hnhalt⟩, hsame⟩ := step_trace h
    · refine ⟨fun _ => hr, fun hstop => ?_⟩
      obtain hst | hst := hst <;> simp [hst] at hstop
    · exact ⟨fun hexec => absurd hexec (not_or.mpr ⟨hnrun, hnhalt⟩), fun _ => hsame⟩
  · exact StraightLineLeft.run ⟨hrun, by omega, hlen, hstraight⟩

end Sys2Proof.Machine
end

