-- ==== Sys2Proof/Proofs/MaskedWords.lean ====
section
/-! The words of an opcode-table row, given by a mask and a value: their fields (30_encoding.md R61), and the instruction
they decode to, which is the one that is encoded as the word. -/

namespace Sys2Proof

/-- A field that lies inside the mask has the bits that the value of the row has there. -/
theorem extractLsb'_of_masked {w mask value : Word} {k n : Nat} (hw : w &&& mask = value)
    (hmask : mask.extractLsb' k n = BitVec.allOnes n) : w.extractLsb' k n = value.extractLsb' k n := by
  rw [← hw, BitVec.extractLsb'_and, hmask, BitVec.and_allOnes]

theorem decode_eq_of_encode_eq {sentinel w : Word} {i : Instr} (hne : w ≠ sentinel) (hwf : i.WellFormed)
    (he : encode sentinel i = w) : decode sentinel w = i := by
  subst he
  exact decode_encode hwf hne

/-! ## The R layout -/

/-- A word of a row that leaves funct7 and the registers open is packed from the row's funct3 and opcode and from its own
other fields. -/
theorem packR_of_masked {w value : Word} {f3 : BitVec 3} {op : BitVec 7} (hw : w &&& 0x0000707F#32 = value)
    (hf3 : funct3Of value = f3) (hop : opcodeOf value = op) :
    packR (funct7Of w) (rs2Of w) (rs1Of w) f3 (rdOf w) op = w := by
  have hwf3 : funct3Of w = funct3Of value := extractLsb'_of_masked hw rfl
  have hwop : opcodeOf w = opcodeOf value := extractLsb'_of_masked hw rfl
  rw [← hf3, ← hop, ← hwf3, ← hwop, packR_fields]

/-- The row of an instruction of the R layout that is well formed for every funct7. -/
theorem wordsDecodeTo_of_packR {value : Word} {form : BitVec 7 → Reg → Reg → Reg → Instr}
    (hwf : ∀ f7 rd r1 r2, (form f7 rd r1 r2).WellFormed)
    (he : ∀ sentinel f7 rd r1 r2,
      encode sentinel (form f7 rd r1 r2) = packR f7 r2 r1 (funct3Of value) rd (opcodeOf value)) :
    Machine.WordsDecodeTo 0x0000707F#32 value fun w => form (funct7Of w) (rdOf w) (rs1Of w) (rs2Of w) :=
  fun _ _ hne hw => decode_eq_of_encode_eq hne (hwf _ _ _ _) ((he _ _ _ _ _).trans (packR_of_masked hw rfl rfl))

end Sys2Proof
end

