-- ==== Sys2Proof/Proofs/RType.lean ====
section
/-! The R-type instructions (41_r_type.md R101 to R107). Each one computes its result and ends in `State.finish`, which gives
completion and the frame; the words are those that the instruction is encoded as. -/

namespace Sys2Proof.Machine

/-- Settles O12: the sum of the signed values, narrowed, is the sum of the patterns. -/
theorem addWritesSum : Obligations.AddWritesSum := by
  refine ⟨fun sentinel w hne hw => ?_, fun rd rs1 rs2 s => ?_⟩
  · have hop : opcodeOf w = 0b0110011#7 := extractLsb'_of_masked hw rfl
    have hf3 : funct3Of w = 0b000#3 := extractLsb'_of_masked hw rfl
    have hf7 : funct7Of w = 0b0000000#7 := extractLsb'_of_masked hw rfl
    have hfields := packR_fields w
    rw [hop, hf3, hf7] at hfields
    exact decode_eq_of_encode_eq hne rfl hfields
  · rw [← aluAdd_eq]
    exact s.finish_writesRd rd _

/-- Settles O13: SUB is well formed exactly where funct7 is not 0. -/
theorem subWritesDifference : Obligations.SubWritesDifference := by
  refine ⟨fun sentinel w hne hw hf7 => ?_, fun f rd rs1 rs2 s => ?_⟩
  · exact decode_eq_of_encode_eq hne (bne_iff_ne.mpr hf7) (packR_of_masked hw rfl rfl)
  · rw [← aluSub_eq]
    exact s.finish_writesRd rd _

/-- Settles O14: comparing the signed values is the signed comparison of the patterns. -/
theorem sltWritesSignedComparison : Obligations.SltWritesSignedComparison := by
  refine ⟨wordsDecodeTo_of_packR (form := .slt) (fun _ _ _ _ => rfl) fun _ _ _ _ _ => rfl,
    fun f rd rs1 rs2 s => ?_⟩
  rw [← aluSlt_eq]
  exact s.finish_writesRd rd _

/-- Settles O15: the low five bits of rs2 are its value modulo 32. -/
theorem sraWritesSignExtendingShift : Obligations.SraWritesSignExtendingShift := by
  refine ⟨wordsDecodeTo_of_packR (form := .sra) (fun _ _ _ _ => rfl) fun _ _ _ _ _ => rfl,
    fun f rd rs1 rs2 s => ?_⟩
  rw [← aluSra_eq]
  exact s.finish_writesRd rd _

/-- Settles O16: the ALU's or is that of the patterns, whose bits the library knows. -/
theorem orWritesBitwiseOr : Obligations.OrWritesBitwiseOr := by
  refine ⟨wordsDecodeTo_of_packR (form := .orReg) (fun _ _ _ _ => rfl) fun _ _ _ _ _ => rfl,
    fun f rd rs1 rs2 s => ?_⟩
  obtain ⟨t, ht, hrd⟩ := s.finish_writesRd rd (aluOr (s.readReg rs1) (s.readReg rs2))
  exact ⟨t, ht, _, fun _ _ => BitVec.getLsbD_or, hrd⟩

/-- Settles O17: the ALU's and is that of the patterns, whose bits the library knows. -/
theorem andWritesBitwiseAnd : Obligations.AndWritesBitwiseAnd := by
  refine ⟨wordsDecodeTo_of_packR (form := .andReg) (fun _ _ _ _ => rfl) fun _ _ _ _ _ => rfl,
    fun f rd rs1 rs2 s => ?_⟩
  obtain ⟨t, ht, hrd⟩ := s.finish_writesRd rd (aluAnd (s.readReg rs1) (s.readReg rs2))
  exact ⟨t, ht, _, fun _ _ => BitVec.getLsbD_and, hrd⟩

/-- Settles O18: the three forms differ in funct3 and have one meaning. -/
theorem rzeroWritesZero : Obligations.RzeroWritesZero := by
  refine ⟨wordsDecodeTo_of_packR (form := .rzero001) (fun _ _ _ _ => rfl) fun _ _ _ _ _ => rfl,
    wordsDecodeTo_of_packR (form := .rzero011) (fun _ _ _ _ => rfl) fun _ _ _ _ _ => rfl,
    wordsDecodeTo_of_packR (form := .rzero100) (fun _ _ _ _ => rfl) fun _ _ _ _ _ => rfl,
    fun f rd rs1 rs2 i s hi => ?_⟩
  simp only [List.mem_cons, List.not_mem_nil, or_false] at hi
  obtain rfl | rfl | rfl := hi <;> exact s.finish_writesRd rd 0#32

end Sys2Proof.Machine
end

