-- ==== Sys2Proof/Proofs/IType.lean ====
section
/-! The I-type instructions (42_i_type.md R120 to R122): the row of the I layout, whose funct3 is not read (R70), what a load
reads by the answer of the router, and the three instructions. LW and ADDI end in `State.finish`, JALR in the link write and
a jump; these give completion and the frame. -/

namespace Sys2Proof

/-- The row of an instruction of the I layout that is well formed for every funct3. -/
theorem wordsDecodeTo_of_packI {value : Word} {form : BitVec 3 → Reg → Reg → BitVec 12 → Instr}
    (hwf : ∀ f3 rd r1 imm, (form f3 rd r1 imm).WellFormed)
    (he : ∀ sentinel f3 rd r1 imm, encode sentinel (form f3 rd r1 imm) = packI imm r1 f3 rd (opcodeOf value)) :
    Machine.WordsDecodeTo 0x0000007F#32 value fun w => form (funct3Of w) (rdOf w) (rs1Of w) (immI w) := by
  intro sentinel w hne hw
  have hop : opcodeOf w = opcodeOf value := extractLsb'_of_masked hw rfl
  refine decode_eq_of_encode_eq hne (hwf _ _ _ _) ?_
  rw [he, ← hop, packI_fields]

namespace Machine

theorem State.memRead_of_stack {s : State} {ea : Int} {i : Nat} (h : route s.cfg ea = .stack i) :
    s.memRead ea = s.stackMem.read i := by
  rw [State.memRead, h]

theorem State.memRead_of_data {s : State} {ea : Int} {i : Nat} (h : route s.cfg ea = .data i) :
    s.memRead ea = s.dataMem.read i := by
  rw [State.memRead, h]

/-- Settles O19: the loaded word is `State.memRead` at the exact address, one answer of the router at a time. -/
theorem lwWritesRoutedWord : Obligations.LwWritesRoutedWord := by
  refine ⟨wordsDecodeTo_of_packI (form := .lw) (fun _ _ _ _ => rfl) fun _ _ _ _ _ => rfl,
    fun f rd rs1 imm s => ?_⟩
  obtain ⟨t, ht, hrd⟩ := exec_lw_writesRd f rd rs1 imm s
  exact ⟨t, _, ht, hrd, fun _ => State.memRead_of_stack, fun _ => State.memRead_of_data, State.memRead_of_unmapped⟩

/-- Settles O20: the sum of the signed values, narrowed, is the sum of the pattern and the sign extension. -/
theorem addiWritesSum : Obligations.AddiWritesSum := by
  refine ⟨wordsDecodeTo_of_packI (form := .addi) (fun _ _ _ _ => rfl) fun _ _ _ _ _ => rfl,
    fun f rd rs1 imm s => ?_⟩
  rw [← aluAddImm_eq]
  exact s.finish_writesRd rd _

/-- JALR writes the link and jumps to the target on `State.jalrOperand` (R24, R122). -/
theorem exec_jalr_linksAndJumps (f : BitVec 3) (rd rs1 : Reg) (imm : BitVec 12) (s : State) :
    ∃ t, exec (.jalr f rd rs1 imm) s = .next t ∧ LinksAndJumps rd (jalrTarget (s.jalrOperand rd rs1) imm) s t :=
  ⟨_, execJalr_eq f rd rs1 imm s, s.writeLink_linksAndJumps rd _⟩

/-- Settles O21: `State.jalrOperand` is the base under both settings, and `jalrTarget` clears bit 0 of the pattern. -/
theorem jalrLinksAndJumpsToRegister : Obligations.JalrLinksAndJumpsToRegister := by
  refine ⟨wordsDecodeTo_of_packI (form := .jalr) (fun _ _ _ _ => rfl) fun _ _ _ _ _ => rfl,
    fun f rd rs1 imm s => ?_⟩
  have hjumps := exec_jalr_linksAndJumps f rd rs1 imm s
  rwa [jalrTarget_eq] at hjumps

end Machine
end Sys2Proof
end

