-- ==== Sys2Proof/Proofs/SType.lean ====
section
/-! The S-type instruction (43_s_type.md R140): every word of the store opcode is an SW, whose funct3 is not read (R70). -/

namespace Sys2Proof.Machine

/-- The row of SW leaves every field but the opcode open (R63, R70). -/
theorem wordsDecodeTo_sw :
    WordsDecodeTo 0x0000007F#32 0x00000023#32 fun w => .sw (funct3Of w) (rs1Of w) (rs2Of w) (immS w) := by
  intro sentinel w hne hw
  have hop : opcodeOf w = 0b0100011#7 := extractLsb'_of_masked hw rfl
  exact decode_eq_of_encode_eq hne rfl (encode_selectS sentinel hop)

/-- Settles O22: the words by their opcode, the store and its frame by `exec_sw_storesWord`; the address is exact by
definition. -/
theorem swStoresWord : Obligations.SwStoresWord := by
  refine ⟨wordsDecodeTo_sw, fun f rs1 rs2 imm s hd hs => ?_⟩
  obtain ⟨t, ht, hstores, hframe⟩ := exec_sw_storesWord f rs1 rs2 imm hd hs
  exact ⟨t, ht, hstores, rfl, hframe⟩

end Sys2Proof.Machine
end

