-- ==== Sys2Proof/Proofs/BType.lean ====
section
/-! The B-type instructions (44_b_type.md R151 to R153): the row of the B layout, and the branches, each of which ends in
`State.branch`, which gives completion and the frame. -/

namespace Sys2Proof

/-- The row of an instruction of the B layout: the immediate of a word is even (R67), which is all that a branch needs to be
well formed. -/
theorem wordsDecodeTo_of_packB {value : Word} {form : Reg → Reg → BitVec 13 → Instr}
    (hwf : ∀ r1 r2 imm, (form r1 r2 imm).wellFormed = !imm.getLsbD 0)
    (he : ∀ sentinel r1 r2 imm,
      encode sentinel (form r1 r2 imm) = packB imm r2 r1 (funct3Of value) (opcodeOf value)) :
    Machine.WordsDecodeTo 0x0000707F#32 value fun w => form (rs1Of w) (rs2Of w) (immB w) := by
  intro sentinel w hne hw
  have hf3 : funct3Of w = funct3Of value := extractLsb'_of_masked hw rfl
  have hop : opcodeOf w = opcodeOf value := extractLsb'_of_masked hw rfl
  refine decode_eq_of_encode_eq hne ?_ ?_
  · rw [Instr.WellFormed, hwf, immB_even, Bool.not_false]
  · rw [he, ← hf3, ← hop, packB_fields]

namespace Machine

theorem condEq_iff {a b : Word} : condEq a b = true ↔ a = b := beq_iff_eq

theorem condNe_iff {a b : Word} : condNe a b = true ↔ a ≠ b := bne_iff_ne

theorem State.branch_false_onlyJumps (s : State) (imm : BitVec 13) :
    ∃ t, s.branch false imm = .next t ∧ OnlyJumps (s.pc + 4#32) s t :=
  s.branch_onlyJumps false imm

/-- Settles O23: the branch is on `condEq`, which is equality of the patterns. -/
theorem beqBranchesIfEqual : Obligations.BeqBranchesIfEqual := by
  refine ⟨wordsDecodeTo_of_packB (form := .beq) (fun _ _ _ => rfl) fun _ _ _ _ => rfl, fun rs1 rs2 imm s => ?_⟩
  have hbranch := s.branch_onlyJumps (condEq (s.readReg rs1) (s.readReg rs2)) imm
  simp only [condEq_iff] at hbranch
  exact hbranch

/-- Settles O24: the branch is on `condNe`, so the statement names the two targets in the other order. -/
theorem bneBranchesIfNotEqual : Obligations.BneBranchesIfNotEqual := by
  refine ⟨wordsDecodeTo_of_packB (form := .bne) (fun _ _ _ => rfl) fun _ _ _ _ => rfl, fun rs1 rs2 imm s => ?_⟩
  have hbranch := s.branch_onlyJumps (condNe (s.readReg rs1) (s.readReg rs2)) imm
  simp only [condNe_iff, ite_not] at hbranch
  exact hbranch

/-- Settles O25: the six forms differ in funct3 and have one meaning, the branch that is not taken. -/
theorem bnopFallsThrough : Obligations.BnopFallsThrough := by
  refine ⟨wordsDecodeTo_of_packB (form := .bnop010) (fun _ _ _ => rfl) fun _ _ _ _ => rfl,
    wordsDecodeTo_of_packB (form := .bnop011) (fun _ _ _ => rfl) fun _ _ _ _ => rfl,
    wordsDecodeTo_of_packB (form := .bnop100) (fun _ _ _ => rfl) fun _ _ _ _ => rfl,
    wordsDecodeTo_of_packB (form := .bnop101) (fun _ _ _ => rfl) fun _ _ _ _ => rfl,
    wordsDecodeTo_of_packB (form := .bnop110) (fun _ _ _ => rfl) fun _ _ _ _ => rfl,
    wordsDecodeTo_of_packB (form := .bnop111) (fun _ _ _ => rfl) fun _ _ _ _ => rfl,
    fun rs1 rs2 imm i s hi => ?_⟩
  simp only [List.mem_cons, List.not_mem_nil, or_false] at hi
  obtain rfl | rfl | rfl | rfl | rfl | rfl := hi <;> exact s.branch_false_onlyJumps imm

end Machine
end Sys2Proof
end

