-- ==== Sys2Proof/Proofs/JType.lean ====
section
/-! The J-type instruction (45_j_type.md R160): every word of the jump opcode is a JAL, which writes the link and jumps. -/

namespace Sys2Proof.Machine

/-- The row of JAL leaves every field but the opcode open (R63, R72); the immediate of a word is even (R68). -/
theorem wordsDecodeTo_jal : WordsDecodeTo 0x0000007F#32 0x0000006F#32 fun w => .jal (rdOf w) (immJ w) := by
  intro sentinel w hne hw
  have hop : opcodeOf w = 0b1101111#7 := extractLsb'_of_masked hw rfl
  exact decode_eq_of_encode_eq hne (selectJ_wellFormed_ne_halt w).1 (encode_selectJ sentinel hop)

/-- JAL writes the link and jumps by its immediate (R160). -/
theorem exec_jal_linksAndJumps (rd : Reg) (imm : BitVec 21) (s : State) :
    ∃ t, exec (.jal rd imm) s = .next t ∧ LinksAndJumps rd (s.pc + imm.signExtend 32) s t := by
  rw [← State.jalTarget_eq]
  exact ⟨_, rfl, s.writeLink_linksAndJumps rd _⟩

/-- Settles O26: the words by their opcode, the link, the jump and the frame by `exec_jal_linksAndJumps`. -/
theorem jalLinksAndJumps : Obligations.JalLinksAndJumps :=
  ⟨wordsDecodeTo_jal, exec_jal_linksAndJumps⟩

end Sys2Proof.Machine
end

