-- ==== Sys2Proof/Proofs/PreciseStops.lean ====
section
/-! Every stopping step is one `State.stop` and the record that HALT makes of it; nothing else changes, and no step follows
(60_exceptions.md R204, R205). -/

namespace Sys2Proof.Machine

/-- An instruction that takes a Running state out of the run only stops it. -/
theorem exec_stops {i : Instr} {s t : State} (hrun : s.status = .running) (h : exec i s = .next t)
    (hstop : t.status ≠ .running) : ∃ st, t = s.stop st := by
  obtain ⟨-, -, -, hst | ⟨-, hhalt⟩ | ⟨-, -, hrefused⟩⟩ := exec_run h
  · exact absurd (hst.trans hrun) hstop
  · exact ⟨_, hhalt⟩
  · exact ⟨_, hrefused⟩

/-- A stopping step is a stop, with a record where the status asks for one. -/
theorem step_stops {s t : State} (h : step s = .next t) (hstop : t.status ≠ .running) :
    ∃ st, t = (s.stop st).recordExecuted := by
  obtain ⟨hrun, ⟨-, rfl⟩ | ⟨-, -, rfl⟩ | ⟨-, u, hu, rfl⟩⟩ := step_cases h
  · exact ⟨.ended, rfl⟩
  · exact ⟨.faultedFetchMisaligned, rfl⟩
  · rw [State.recordExecuted_status] at hstop
    obtain ⟨st, rfl⟩ := exec_stops hrun hu hstop
    exact ⟨st, rfl⟩

/-- Settles O43: the stop changes the status alone, and HALT's record shows the state before the step. -/
theorem stopsArePrecise : Obligations.StopsArePrecise := by
  intro s t h hstop
  have hlast : ∀ u, step t ≠ .next u := fun u => by simp [step_of_not_running hstop]
  obtain ⟨st, rfl⟩ := step_stops h hstop
  obtain ⟨-, hpc, hregs, hmem, hprog, hcfg, htrace⟩ := s.stop_onlyStops st
  obtain ⟨hexec, hrec⟩ | ⟨⟨-, hnhalt⟩, hrec⟩ := (s.stop st).recordExecuted_cases <;> rw [hrec] at hstop hlast ⊢
  · have hhalt : (s.stop st).record.status = .halted := hexec.resolve_left hstop
    exact ⟨hpc, hregs, hmem, hprog, hcfg, fun _ => ⟨_, rfl, s.shows_self⟩, fun hne => absurd hhalt hne, hlast⟩
  · exact ⟨hpc, hregs, hmem, hprog, hcfg, fun hhalt => absurd hhalt hnhalt, fun _ => htrace, hlast⟩

end Sys2Proof.Machine
end

