-- ==== Sys2Proof/Proofs/SelfJump.lean ====
section
/-! A JAL to itself fetches the same word again, so it runs on for ever (70_reset_and_hazards.md R235). -/

namespace Sys2Proof.Machine

/-- A JAL by 0 leaves pc, program, configuration and status as they are, so the next step fetches its word again. -/
theorem step_of_selfJump {s : State} {w : Word} {rd : Reg} (hf : Fetches s w)
    (hw : decode s.cfg.haltSentinel w = .jal rd 0#21) :
    ∃ t, step s = .next t ∧ Fetches t w ∧ t.cfg = s.cfg ∧ t.pc = s.pc ∧ t.trace.length = s.trace.length + 1 := by
  obtain ⟨u, hu, -, -, htarget, -, hprog, hcfg, hst, htrace⟩ := exec_jal_linksAndJumps rd 0#21 s
  have hpc : u.pc = s.pc := by simpa using htarget
  obtain ⟨hrun, hword, halign⟩ := hf
  have hrun' : u.status = .running := hst.trans hrun
  have hagain : Fetches u.record w := ⟨hrun', by simpa [hprog, hpc] using hword, by simpa [hcfg, hpc] using halign⟩
  exact ⟨_, step_of_executed ⟨hrun, hword, halign⟩ (hw ▸ hu) (.inl hrun'), hagain, hcfg, hpc, by simp [htrace]⟩

/-- Settles O47, by induction on the number of steps. -/
theorem selfJumpRunsForever : Obligations.SelfJumpRunsForever := by
  intro s w rd hf hw n
  induction n generalizing s with
  | zero => exact ⟨s, rfl, hf.1, rfl, rfl⟩
  | succ n ih =>
    obtain ⟨u, hu, hf', hcfg, hpc, htrace⟩ := step_of_selfJump hf hw
    obtain ⟨t, ht, hrun, hpc', htrace'⟩ := ih u hf' (hcfg ▸ hw)
    exact ⟨t, run_succ_eq_next_iff.mpr ⟨u, hu, ht⟩, hrun, hpc'.trans hpc, by omega⟩

end Sys2Proof.Machine
end

