-- ==== Sys2Proof/Proofs/BinaryDigits.lean ====
section
/-! The 32 binary digits of a word, as they are read and written (70_reset_and_hazards.md R224, R230): its bits, most
significant first, the value of such bits, and their characters. -/

namespace Sys2Proof.Machine

/-- The bits of a word, most significant first. -/
def bitsOf (w : Word) : List Bool := (List.range 32).map fun k => w.getLsbD (31 - k)

/-- The character of a binary digit. -/
def bitChar (b : Bool) : Char := if b then '1' else '0'

@[simp] theorem length_bitsOf (w : Word) : (bitsOf w).length = 32 := by simp [bitsOf]

theorem getElem?_bitsOf (w : Word) {k : Nat} (hk : k < 32) : (bitsOf w)[k]? = some (w.getLsbD (31 - k)) := by
  simp [bitsOf, hk]

/-! ## The value of bits -/

theorem valueOfBits_concat (bs : List Bool) (b : Bool) : valueOfBits (bs ++ [b]) = Nat.bit b (valueOfBits bs) := by
  rw [Nat.bit_val, valueOfBits, List.foldl_append]
  rfl

/-- Bit `k` of the value is the digit `k` places from the end, and 0 beyond the first digit. -/
theorem testBit_valueOfBits (bs : List Bool) (k : Nat) :
    (valueOfBits bs).testBit k = bs.reverse[k]?.getD false := by
  induction bs using List.reverseRecOn generalizing k with
  | nil => simp [valueOfBits]
  | append_singleton bs b ih =>
    rw [valueOfBits_concat, List.reverse_append]
    cases k with
    | zero => simp
    | succ k => simpa [Nat.testBit_bit_succ] using ih k

/-- From the end, the bits of a word stand in the order of their numbers. -/
theorem getD_reverse_bitsOf (w : Word) (k : Nat) : (bitsOf w).reverse[k]?.getD false = w.getLsbD k := by
  by_cases hk : k < 32
  · rw [List.getElem?_reverse (by simpa using hk), length_bitsOf, getElem?_bitsOf w (by omega)]
    simp [show 31 - (31 - k) = k by omega]
  · have hlen : (bitsOf w).reverse.length ≤ k := by simpa using hk
    rw [List.getElem?_eq_none hlen, BitVec.getLsbD_of_ge w k (not_lt.mp hk), Option.getD_none]

theorem valueOfBits_bitsOf (w : Word) : valueOfBits (bitsOf w) = w.toNat := by
  apply Nat.eq_of_testBit_eq
  intro k
  rw [testBit_valueOfBits, getD_reverse_bitsOf, BitVec.getLsbD]

theorem bitsOf_valueOfBits {bs : List Bool} (h : bs.length = 32) : bitsOf (BitVec.ofNat 32 (valueOfBits bs)) = bs := by
  apply List.ext_getElem (by simp [h])
  intro k hk hk'
  have hlast : 31 - k < bs.length := by omega
  have hflip : bs.length - 1 - (31 - k) = k := by omega
  simp only [bitsOf, List.getElem_map, List.getElem_range]
  rw [BitVec.getLsbD_ofNat, testBit_valueOfBits, List.getElem?_reverse hlast, hflip, List.getElem?_eq_getElem hk',
    Option.getD_some, decide_eq_true (show 31 - k < 32 by omega), Bool.true_and]

/-! ## The characters of bits -/

theorem bitChars_eq_map (w : Word) : bitChars w = (bitsOf w).map bitChar := by
  simp [bitChars, bitsOf, bitChar]

@[simp] theorem length_bitChars (w : Word) : (bitChars w).length = 32 := by simp [bitChars]

theorem getElem?_bitChars (w : Word) {k : Nat} (hk : k < 32) :
    (bitChars w)[k]? = some (if w.getLsbD (31 - k) = true then '1' else '0') := by
  simp [bitChars, hk]

theorem bitChar_eq_digit (b : Bool) : bitChar b = '0' ∨ bitChar b = '1' := by
  cases b <;> simp [bitChar]

/-- The characters of some word are the lists of 32 binary digits. -/
theorem exists_eq_bitChars_iff {t : List Char} :
    (∃ w, t = bitChars w) ↔ t.length = 32 ∧ ∀ ch ∈ t, ch = '0' ∨ ch = '1' := by
  constructor
  · rintro ⟨w, rfl⟩
    refine ⟨length_bitChars w, fun ch hch => ?_⟩
    rw [bitChars_eq_map] at hch
    obtain ⟨b, -, rfl⟩ := List.mem_map.mp hch
    exact bitChar_eq_digit b
  · rintro ⟨hlen, hdigits⟩
    have hchars : (t.map (· == '1')).map bitChar = t := by
      rw [List.map_map]
      refine (List.map_congr_left fun ch hch => ?_).trans (List.map_id t)
      obtain rfl | rfl := hdigits ch hch <;> rfl
    refine ⟨BitVec.ofNat 32 (valueOfBits (t.map (· == '1'))), ?_⟩
    rw [bitChars_eq_map, bitsOf_valueOfBits (by simpa using hlen), hchars]

/-- A list of characters is 32 binary digits of the word exactly if each of them is. -/
theorem eq_bitChars_iff {t : List Char} {w : Word} :
    t = bitChars w ↔ t.length = 32 ∧ ∀ k, k < 32 → t[k]? = some (if w.getLsbD (31 - k) = true then '1' else '0') := by
  constructor
  · rintro rfl
    exact ⟨length_bitChars w, fun k => getElem?_bitChars w⟩
  · rintro ⟨hlen, hdigits⟩
    apply List.ext_getElem?
    intro k
    by_cases hk : k < 32
    · rw [hdigits k hk, getElem?_bitChars w hk]
    · rw [List.getElem?_eq_none (by omega), List.getElem?_eq_none (by simpa using hk)]

/-! ## Reading digits -/

theorem bitOfChar_eq_some_iff {c : Char} {b : Bool} : bitOfChar c = some b ↔ c = bitChar b := by
  unfold bitOfChar
  split_ifs with h0 h1
  · subst h0; cases b <;> simp [bitChar]
  · subst h1; cases b <;> simp [bitChar]
  · cases b <;> simp [bitChar, h0, h1]

theorem mapM_bitOfChar_eq_some_iff {t : List Char} {bs : List Bool} :
    t.mapM bitOfChar = some bs ↔ t = bs.map bitChar := by
  induction t generalizing bs with
  | nil => simp [eq_comm]
  | cons c t ih =>
    cases bs <;> simp [bitOfChar_eq_some_iff, ih, Option.bind_eq_some_iff]

end Sys2Proof.Machine
end

