-- ==== Sys2Proof/Proofs/InputLines.lean ====
section
/-! Input lines (70_reset_and_hazards.md R224 to R226): what is left of a line once trimmed, what `parseLine` answers
for it, and what is loaded from a list of lines. -/

namespace Sys2Proof.Machine

/-! ## Trimming (R226) -/

/-- The trailing white space is dropped from what is left without the leading. -/
theorem trimLine_eq (l : List Char) : trimLine l = (l.dropWhile isLineSpace).rdropWhile isLineSpace := rfl

/-- Without its leading white space a line begins with another character. -/
theorem isLineSpace_of_head?_dropWhile {l : List Char} {ch : Char}
    (h : (l.dropWhile isLineSpace).head? = some ch) : isLineSpace ch = false := by
  have hhead := List.head?_dropWhile_not isLineSpace l
  rw [h] at hhead
  exact hhead

theorem isLineSpace_of_head?_trimLine {l : List Char} {ch : Char} (h : (trimLine l).head? = some ch) :
    isLineSpace ch = false := by
  rw [← List.singleton_prefix_iff_head?_eq_some] at h
  have hprefix : [ch] <+: l.dropWhile isLineSpace := h.trans (List.rdropWhile_prefix _ _)
  exact isLineSpace_of_head?_dropWhile (List.singleton_prefix_iff_head?_eq_some.mp hprefix)

theorem isLineSpace_of_getLast?_trimLine {l : List Char} {ch : Char} (h : (trimLine l).getLast? = some ch) :
    isLineSpace ch = false := by
  have hne : trimLine l ≠ [] := by
    intro hnil
    simp [hnil] at h
  rw [List.getLast?_eq_some_getLast hne, Option.some.injEq] at h
  subst h
  exact Bool.eq_false_of_not_eq_true (List.rdropWhile_last_not _ _ hne)

/-- Nothing is left exactly of a line of white space: what the first drop leaves would begin with another character. -/
theorem trimLine_eq_nil_iff {l : List Char} : trimLine l = [] ↔ ∀ ch ∈ l, isLineSpace ch = true := by
  rw [← List.dropWhile_eq_nil_iff, trimLine_eq, List.rdropWhile_eq_nil_iff]
  constructor
  · intro hall
    cases hd : l.dropWhile isLineSpace with
    | nil => rfl
    | cons ch rest =>
      have hother : isLineSpace ch = false := isLineSpace_of_head?_dropWhile (l := l) (by rw [hd]; rfl)
      exact absurd (hall ch (by simp [hd])) (by simp [hother])
  · intro hnil
    simp [hnil]

/-- The line is its trimmed part between two runs of white space. -/
theorem exists_eq_append_trimLine (l : List Char) : ∃ pre post, l = pre ++ trimLine l ++ post ∧
    (∀ ch ∈ pre, isLineSpace ch = true) ∧ ∀ ch ∈ post, isLineSpace ch = true := by
  refine ⟨l.takeWhile isLineSpace, (l.dropWhile isLineSpace).rtakeWhile isLineSpace, ?_,
    fun ch => List.mem_takeWhile_imp, fun ch => List.mem_rtakeWhile_imp⟩
  rw [trimLine_eq, List.append_assoc, List.rdropWhile_append_rtakeWhile, List.takeWhile_append_dropWhile]

theorem trimLine_eq_self {l : List Char} (h : ∀ ch ∈ l, isLineSpace ch = false) : trimLine l = l := by
  have hlead : l.dropWhile isLineSpace = l :=
    List.dropWhile_eq_self_iff.mpr fun hl => by simp [h _ (List.getElem_mem hl)]
  rw [trimLine_eq, hlead]
  exact List.rdropWhile_eq_self_iff.mpr fun hl => by simp [h _ (List.getLast_mem hl)]

theorem isLineSpace_of_digit {ch : Char} (h : ch = '0' ∨ ch = '1') : isLineSpace ch = false := by
  obtain rfl | rfl := h <;> decide

@[simp] theorem trimLine_bitChars (w : Word) : trimLine (bitChars w) = bitChars w := by
  obtain ⟨-, hdigits⟩ := exists_eq_bitChars_iff.mp ⟨w, rfl⟩
  exact trimLine_eq_self fun ch hch => isLineSpace_of_digit (hdigits ch hch)

/-! ## What a line is (R224 to R226) -/

theorem parseLine_eq_skipped_iff {l : List Char} : parseLine l = .skipped ↔ trimLine l = [] := by
  unfold parseLine
  by_cases hnil : trimLine l = []
  · simp [hnil]
  · refine iff_of_false ?_ hnil
    simp only [if_neg hnil]
    split_ifs
    · split <;> nofun
    · nofun

theorem parseLine_eq_word_iff {l : List Char} {w : Word} : parseLine l = .word w ↔ trimLine l = bitChars w := by
  unfold parseLine
  constructor
  · intro h
    dsimp only at h
    split_ifs at h with hnil hlen
    split at h
    · next bs hbs =>
      cases h
      have hchars := mapM_bitOfChar_eq_some_iff.mp hbs
      have hbits : bs.length = 32 := by simpa [hchars] using hlen
      rw [bitChars_eq_map, bitsOf_valueOfBits hbits, hchars]
    · cases h
  · intro h
    have hne : bitChars w ≠ [] := List.ne_nil_of_length_pos (by simp)
    have hbits : (bitChars w).mapM bitOfChar = some (bitsOf w) := mapM_bitOfChar_eq_some_iff.mpr (bitChars_eq_map w)
    simp [h, hne, hbits, valueOfBits_bitsOf]

/-- What is neither skipped nor a word is malformed. -/
theorem parseLine_eq_malformed_iff {l : List Char} : parseLine l = .malformed ↔
    trimLine l ≠ [] ∧ ¬((trimLine l).length = 32 ∧ ∀ ch ∈ trimLine l, ch = '0' ∨ ch = '1') := by
  rw [← exists_eq_bitChars_iff, Ne, ← parseLine_eq_skipped_iff]
  simp only [← parseLine_eq_word_iff]
  cases parseLine l <;> simp

/-! ## Loading (R224, R225) -/

theorem loadLines_of_skipped {l : List Char} {ls : List (List Char)} (h : parseLine l = .skipped) :
    loadLines (l :: ls) = loadLines ls := by
  rw [loadLines, h]

theorem loadLines_of_word {l : List Char} {ls : List (List Char)} {w : Word} (h : parseLine l = .word w) :
    loadLines (l :: ls) = (loadLines ls).map (w :: ·) := by
  rw [loadLines, h]

theorem loadLines_of_malformed {l : List Char} {ls : List (List Char)} (h : parseLine l = .malformed) :
    loadLines (l :: ls) = none := by
  rw [loadLines, h]

/-- The loaded words are those of the lines, in order, without the skipped lines. -/
theorem map_word_of_loadLines {ls : List (List Char)} {p : List Word} (h : loadLines ls = some p) :
    (ls.map parseLine).filter (fun r => decide (r ≠ .skipped)) = p.map .word := by
  induction ls generalizing p with
  | nil =>
    cases h
    rfl
  | cons l ls ih =>
    rw [List.map_cons]
    cases hl : parseLine l with
    | skipped =>
      rw [loadLines_of_skipped hl] at h
      simpa using ih h
    | word w =>
      rw [loadLines_of_word hl] at h
      obtain ⟨q, hq, rfl⟩ := Option.map_eq_some_iff.mp h
      simpa using ih hq
    | malformed => simp [loadLines_of_malformed hl] at h

theorem loadLines_bitChars (p : List Word) : loadLines (p.map bitChars) = some p := by
  induction p with
  | nil => rfl
  | cons w p ih =>
    rw [List.map_cons, loadLines_of_word (parseLine_eq_word_iff.mpr (trimLine_bitChars w)), ih]
    rfl

theorem loadLines_eq_none_of_malformed {l : List Char} {ls : List (List Char)} (hl : l ∈ ls)
    (h : parseLine l = .malformed) : loadLines ls = none := by
  induction hl with
  | head => exact loadLines_of_malformed h
  | @tail l' ls' _ ih =>
    cases hl' : parseLine l' with
    | skipped => rw [loadLines_of_skipped hl', ih]
    | word w => rw [loadLines_of_word hl', ih, Option.map_none]
    | malformed => exact loadLines_of_malformed hl'

/-- No more words than lines are loaded. -/
theorem length_le_of_loadLines {ls : List (List Char)} {p : List Word} (h : loadLines ls = some p) :
    p.length ≤ ls.length := by
  have hwords := map_word_of_loadLines h
  calc p.length = ((ls.map parseLine).filter (fun r => decide (r ≠ .skipped))).length := by rw [hwords, List.length_map]
    _ ≤ (ls.map parseLine).length := List.length_filter_le _ _
    _ = ls.length := List.length_map _

theorem boot_of_loaded {c : Config} {ls : List (List Char)} {p : List Word} (h : loadLines ls = some p) :
    boot c ls = State.resetWith c p := by
  rw [boot, h]

theorem boot_of_refused {c : Config} {ls : List (List Char)} (h : loadLines ls = none) :
    boot c ls = (State.resetWith c []).stop .refusedDecodeError := by
  rw [boot, h]

/-! ## The statements -/

/-- Settles O53: a line's word is the one whose 32 characters its trimmed part is. -/
theorem linesLoadInOrder : Obligations.LinesLoadInOrder :=
  ⟨fun _ _ => parseLine_eq_word_iff.trans eq_bitChars_iff, fun _ _ => map_word_of_loadLines, loadLines_bitChars,
    fun _ _ _ => boot_of_loaded⟩

/-- Settles O54: a refused run starts in a stopped state, which has no step and no normal end. -/
theorem malformedLineRefusesRun : Obligations.MalformedLineRefusesRun := by
  refine ⟨fun _ => parseLine_eq_malformed_iff, fun c ls ⟨l, hl, hmal⟩ => ?_⟩
  rw [boot_of_refused (loadLines_eq_none_of_malformed hl hmal)]
  refine ⟨rfl, rfl, fun t => ?_, rfl⟩
  simp [step_of_not_running (s := (State.resetWith c []).stop .refusedDecodeError) nofun]

/-- Settles O55: what is skipped is what trims to nothing. -/
theorem linesAreTrimmed : Obligations.LinesAreTrimmed := by
  refine fun l => ⟨exists_eq_append_trimLine l, fun ch hend => ?_, parseLine_eq_skipped_iff.trans trimLine_eq_nil_iff⟩
  obtain hhead | hlast := hend
  · exact isLineSpace_of_head?_trimLine hhead
  · exact isLineSpace_of_getLast?_trimLine hlast

end Sys2Proof.Machine
end

