-- ==== Sys2Proof/Proofs/OutputText.lean ====
section
/-! The output of a run (70_reset_and_hazards.md R229 to R232): the fields of a trace line, the digits of a dump line, and
the trace and dump after a normal end. -/

namespace Sys2Proof.Machine

/-! ## Trace lines (R230) -/

/-- One separator before each further part. -/
theorem intercalate_cons_eq_flatMap (sep : Char) (field : List Char) (fields : List (List Char)) :
    List.intercalate [sep] (field :: fields) = field ++ fields.flatMap (sep :: ·) := by
  induction fields generalizing field with
  | nil => simp
  | cons field' rest ih => simp [List.intercalate_cons_cons, ih]

/-- The fields of a trace line: the pc, then the registers. -/
def traceFields (r : TraceRecord) : List (List Char) := (r.pc :: r.x.toList).map binField

theorem traceLine_eq (r : TraceRecord) : traceLine r = List.intercalate [' '] (traceFields r) ++ ['\n'] := by
  rw [traceFields, List.map_cons, intercalate_cons_eq_flatMap, List.flatMap_map, traceLine]

theorem getElem?_traceFields (r : TraceRecord) {j : Nat} (hj : j < 33) :
    (traceFields r)[j]? = some (binField (if _ : j = 0 then r.pc else r.x[j - 1]'(by omega))) := by
  cases j with
  | zero => rfl
  | succ j =>
    have hj' : j < 32 := by omega
    simp [traceFields, hj']

/-- Settles O56: the fields are those of `traceFields`, each written by `binField`. -/
theorem traceLineHas33Fields : Obligations.TraceLineHas33Fields := by
  refine fun r => ⟨traceFields r, by simp [traceFields], traceLine_eq r, fun j hj => ?_⟩
  exact ⟨_, getElem?_traceFields r hj, length_bitChars _, fun k => getElem?_bitChars _⟩

/-! ## Dump lines (R231) -/

/-- The hexadecimal digits of a word, most significant first. -/
def hexDigitsOf (w : Word) : List Nat := (List.range 8).map fun k => w.toNat / 16 ^ (7 - k) % 16

theorem hexDigitsOf_lt {w : Word} {d : Nat} (h : d ∈ hexDigitsOf w) : d < 16 := by
  obtain ⟨k, -, rfl⟩ := List.mem_map.mp h
  exact Nat.mod_lt _ (by decide)

/-- The first `n` hexadecimal digits of a word have the value of the word without its other digits. -/
theorem foldl_hexDigits_take (w : Word) {n : Nat} (hn : n ≤ 8) :
    ((List.range n).map fun k => w.toNat / 16 ^ (7 - k) % 16).foldl (fun m d => 16 * m + d) 0 =
      w.toNat / 16 ^ (8 - n) := by
  induction n with
  | zero => exact (Nat.div_eq_of_lt w.isLt).symm
  | succ n ih =>
    have hpow : 8 - n = (7 - n) + 1 := by omega
    have hpow' : 8 - (n + 1) = 7 - n := by omega
    rw [List.range_succ, List.map_append, List.foldl_append, ih (by omega), hpow, hpow', Nat.pow_succ,
      ← Nat.div_div_eq_div_mul]
    exact Nat.div_add_mod _ 16

theorem foldl_hexDigitsOf (w : Word) : (hexDigitsOf w).foldl (fun m d => 16 * m + d) 0 = w.toNat := by
  rw [hexDigitsOf, foldl_hexDigits_take w le_rfl, Nat.sub_self, Nat.pow_zero, Nat.div_one]

/-- The characters of the digits; a digit is below 16, so the default is never used. -/
theorem hexChars_eq_map (w : Word) : hexChars w = (hexDigitsOf w).map fun d =>
    ['0', '1', '2', '3', '4', '5', '6', '7', '8', '9', 'A', 'B', 'C', 'D', 'E', 'F'].getD d ' ' := by
  have hchars : hexChars w = (hexDigitsOf w).map hexChar := by simp [hexChars, hexDigitsOf]
  rw [hchars]
  refine List.map_congr_left fun d hd => ?_
  rw [hexChar, List.getD_eq_getElem _ _ (hexDigitsOf_lt hd), List.getD_eq_getElem _ _ (hexDigitsOf_lt hd)]

theorem foldl_toNat_bitsOf (w : Word) : ((bitsOf w).map Bool.toNat).foldl (fun m d => 2 * m + d) 0 = w.toNat := by
  rw [List.foldl_map, ← valueOfBits_bitsOf w, valueOfBits]

theorem bitChars_eq_map_toNat (w : Word) :
    bitChars w = ((bitsOf w).map Bool.toNat).map fun d => if d = 1 then '1' else '0' := by
  rw [bitChars_eq_map, List.map_map]
  refine List.map_congr_left fun b _ => ?_
  cases b <;> rfl

/-- The data region ends within the address space (R6), so no address of a data word wraps. -/
theorem toNat_dumpAddress {c : Config} {i : Nat} (hwf : c.wf = true) (hi : i < c.memSize) :
    (norm32 (uint c.memStart + 4 * i)).toNat = c.memStart.toNat + 4 * i := by
  simp only [Config.wf, Bool.and_eq_true, decide_eq_true_eq] at hwf
  obtain ⟨⟨-, hend⟩, -⟩ := hwf
  have huint : uint (norm32 (uint c.memStart + 4 * i)) = uint c.memStart + 4 * i :=
    uint_norm32_of_nonneg (by simp only [uint]; omega) (by simp only [uint]; omega)
  simp only [uint] at huint
  exact_mod_cast huint

@[simp] theorem length_memoryDump (s : State) : (memoryDump s).length = s.cfg.memSize := by simp [memoryDump]

theorem getElem?_memoryDump {s : State} {i : Nat} (hi : i < s.cfg.memSize) :
    (memoryDump s)[i]? = some (dumpLine s i) := by
  simp [memoryDump, hi]

/-- Settles O57: the digits are the hexadecimal digits of the address and the bits of the word. -/
theorem dumpListsDataWords : Obligations.DumpListsDataWords := by
  refine fun s hwf => ⟨length_memoryDump s, fun i hi => ?_, fun m => rfl⟩
  refine ⟨hexDigitsOf (norm32 (uint s.cfg.memStart + 4 * i)), (bitsOf (s.dataMem.read i)).map Bool.toNat, ?_,
    by simp [hexDigitsOf], fun _ => hexDigitsOf_lt, ?_, by simp, ?_, foldl_toNat_bitsOf _⟩
  · rw [getElem?_memoryDump hi, dumpLine, ← bitChars_eq_map_toNat, ← hexChars_eq_map]
    simp [binField]
  · rw [foldl_hexDigitsOf, toNat_dumpAddress hwf hi]
  · intro d hd
    obtain ⟨b, -, rfl⟩ := List.mem_map.mp hd
    exact b.toNat_lt

/-! ## The output (R229, R232) -/

theorem output_of_normalEnd {s : State} (h : s.normalEnd = true) :
    output s = some (s.trace.map traceLine ++ memoryDump s) := if_pos h

theorem output_of_not_normalEnd {s : State} (h : s.normalEnd = false) : output s = none := by
  simp [output, h]

theorem State.normalEnd_iff {s : State} : s.normalEnd = true ↔ s.status = .halted ∨ s.status = .ended := by
  simp [State.normalEnd]

/-- Settles O58: the trace lines stand before the dump, one for each record. -/
theorem outputFollowsNormalEnd : Obligations.OutputFollowsNormalEnd := by
  refine fun s => ⟨fun hend => ⟨_, output_of_normalEnd (State.normalEnd_iff.mpr hend), ?_, ?_, ?_⟩, fun hstop => ?_⟩
  · simp
  · intro k r hr
    obtain ⟨hk, -⟩ := List.getElem?_eq_some_iff.mp hr
    rw [List.getElem?_append_left (by simpa using hk), List.getElem?_map, hr, Option.map_some]
  · intro i _
    rw [List.getElem?_append_right (by simp), List.length_map, Nat.add_sub_cancel_left]
  · refine output_of_not_normalEnd ?_
    obtain hstop | hstop := hstop <;> simp [State.normalEnd, hstop]

end Sys2Proof.Machine
end

