-- ==== Sys2Proof/Proofs/Reset.lean ====
section
/-! The state after reset (70_reset_and_hazards.md R220 to R225). -/

namespace Sys2Proof.Machine

/-- Register 2 alone is set at reset (R221). -/
theorem State.resetWith_readReg (c : Config) (p : List Word) (r : Reg) :
    (State.resetWith c p).readReg r = if r = 2#5 then c.spInit else 0#32 := by
  have hx : (State.resetWith c p).x = (Vector.replicate 32 0#32).set 2 c.spInit := rfl
  have hr : r = 2#5 ↔ 2 = r.toNat := by rw [← BitVec.toNat_inj, eq_comm]; rfl
  by_cases hpin : regPinned c r
  · have hne : r ≠ 2#5 := by rw [hpin.2]; decide
    rw [State.readReg_of_pinned hpin, if_neg hne]
  · simp [State.readReg, hpin, hx, Vector.getElem_set, hr]

/-- Settles O50: every field but the registers by definition. -/
theorem resetValues : Obligations.ResetValues :=
  fun c p => ⟨State.resetWith_readReg c p, rfl, rfl, rfl, rfl, fun _ => ⟨rfl, rfl⟩⟩

/-- Memory is empty, x0 is 0, the trace is empty, and the run has not stopped. -/
theorem State.resetWith_inv {c : Config} {p : List Word} (hwf : c.wf = true) (hlen : p.length ≤ Config.maxProgLen) :
    (State.resetWith c p).Inv where
  cfg_wf := hwf
  prog_len := hlen
  data_wf := rfl
  data_below := rfl
  stack_wf := rfl
  stack_below := rfl
  stack_off _ := rfl
  pc_even := BitVec.getLsbD_zero
  x0_pinned _ := rfl
  trace_current := nofun
  ended_outside := nofun
  faulted_at := nofun
  halted_at := nofun

/-- A boot is a reset with the loaded program, or a stopped reset with none (R225). -/
theorem boot_inv {c : Config} {lines : List (List Char)} (hwf : c.wf = true)
    (hlen : lines.length ≤ Config.maxProgLen) : (boot c lines).Inv := by
  cases hload : loadLines lines with
  | some p =>
    rw [boot_of_loaded hload]
    exact State.resetWith_inv hwf ((length_le_of_loadLines hload).trans hlen)
  | none =>
    rw [boot_of_refused hload]
    exact (State.resetWith_inv hwf (Nat.zero_le _)).stop nofun nofun nofun

/-- Settles O49: the model's own reset is one of a legal configuration. -/
theorem invariantHoldsAtReset : Obligations.InvariantHoldsAtReset :=
  ⟨fun _ _ => State.resetWith_inv, State.resetWith_inv (by decide) (Nat.zero_le _), fun _ _ => boot_inv⟩

end Sys2Proof.Machine
end

