-- ==== Sys2Proof/Proofs/ExampleWords.lean ====
section
/-! The example words of the spec's own vectors (95_test_vectors.md L2.0 to L2.7): each is the word its instruction is
encoded as. -/

namespace Sys2Proof

/-- Settles O11: the sentinel by itself, and every other word as the encoding of its instruction. -/
theorem exampleWordsDecode : Obligations.ExampleWordsDecode :=
  ⟨decode_sentinel _, decode_eq_of_encode_eq (by decide) rfl rfl, decode_eq_of_encode_eq (by decide) rfl rfl,
    decode_eq_of_encode_eq (by decide) rfl rfl, decode_eq_of_encode_eq (by decide) rfl rfl,
    decode_eq_of_encode_eq (by decide) rfl rfl, decode_eq_of_encode_eq (by decide) rfl rfl,
    decode_eq_of_encode_eq (by decide) rfl rfl⟩

end Sys2Proof
end
